-- ==== Sys2Proof/Word.lean ====
section
/-! DEFINITION. The machine's word: an unsigned 16-bit value (rules R6 and R8). Nothing in the
instruction set is signed, so a word is only ever read as a number through `BitVec.toNat`. -/

namespace Sys2Proof

/-- WORD_BITS = 16 (R6): a memory word, a register, a stack entry, a character code, `pc`. -/
abbrev Word := BitVec 16

/-- One byte of the image on the LOAD port (R12); there is no byte inside the block (R54, R55). -/
abbrev Byte := BitVec 8

end Sys2Proof
end

