-- ==== Sys2Proof/Config.lean ====
section
/-! DEFINITION. What the spec does not fix (rule R7): the two parameters a rule reads, held as plain
data so that every statement speaks of every choice, and the three values no rule reads, left free. -/

namespace Sys2Proof

/-- RMEM_REGISTER_MODE (R7, D17): how `rmem` reads when its source operand names a register. -/
inductive RmemMode where
  | indirect  -- `mem[Value(b)]` (R101)
  | direct    -- the accessor `readMemoryOperand` (R103)
  deriving DecidableEq, Repr

/-- The parameters that rules of the state transition read. -/
structure Config where
  /-- STACK_CAPACITY (R7, D7): `none` is `unbounded`. -/
  stackCapacity : Option Nat
  /-- RMEM_REGISTER_MODE (R7, D17). -/
  rmemMode : RmemMode
  deriving DecidableEq, Repr

/-- One complete input line on IN_LINE (R13): a non-empty list of codes, so its first code and the
rest.  That its last code, and no other, is the newline code is the check `Line.wf`. -/
structure Line where
  first : Word
  rest : List Word
  deriving DecidableEq, Repr

/-- FREE VALUE (log entry 9): the memory after `ImageTooLarge`, which R202 (D23) leaves
unspecified; applied to the image and an address. -/
opaque Config.memoryAfterImageTooLarge : List Byte → Nat → Word

/-- FREE VALUE (log entry 11): INPUT_CODEC (R7, D9), the lines a host text becomes. -/
opaque Config.inputCodec : String → List Line

/-- FREE VALUE (log entry 11): OUTPUT_CODEC (R7, D10), how a host shows an emitted code. -/
opaque Config.outputCodec : Word → String

end Sys2Proof
end

