-- ==== Sys2Proof/Machine/Params.lean ====
section
/-! DEFINITION. The fixed parameters of rule R6 and the defaults of rule R7. -/

namespace Sys2Proof.Machine

/-- MEM_WORDS (R6): addresses 0..32767. -/
def memWords : Nat := 32768

/-- SENTINEL (R6): the value of an invalid value operand. -/
def sentinel : Word := 50000

/-- ARITH_MODULUS (R6): the modulus of `add` and `mult`. -/
def arithModulus : Nat := 32768

/-- NOT_MASK (R6): the 15-bit mask of `not`. -/
def notMask : Word := 0x7FFF

/-- MAX_IMAGE_WORDS (R6): a larger image is a loader error. -/
def maxImageWords : Nat := 32768

/-- The newline code (R13, D25): PRESUMED by the spec itself, log entry 10. -/
def newlineCode : Word := 10

/-- The defaults the spec takes for STACK_CAPACITY (D7) and RMEM_REGISTER_MODE (D17). -/
def defaultConfig : Config := { stackCapacity := none, rmemMode := .indirect }

end Sys2Proof.Machine
end

