-- ==== Sys2Proof/Machine/State.lean ====
section
/-! DEFINITION. The state (10_state.md), the ports' traffic (rule R11), the reasons a step can answer
no next state, and the state after reset. -/

namespace Sys2Proof.Machine

/-- Memory as (address, word) pairs; an address not listed holds 0, the reset value of every memory
word (R30, R200).  The unit is the 16-bit word, the only one the spec has (R51, R54): log entry 1. -/
abbrev Memory := List (Nat × Word)

/-- Why the block halted, a stop without an error (R37, R175). -/
inductive HaltReason where
  | haltInstruction
  | returnUnderflow
  | unknownOpcode (op : Word)
  deriving DecidableEq, Repr

/-- Why the block faulted, a stop with an error (R37, R170, R176). -/
inductive FaultKind where
  | stackUnderflow
  | addressOutOfRange (a : Word)
  | divideByZero
  | stackOverflow
  | imageTooLarge
  deriving DecidableEq, Repr

/-- The run status (R37), which the STATUS port shows (R15). -/
inductive Status where
  | running
  | halted (r : HaltReason)
  | faulted (k : FaultKind)
  deriving DecidableEq, Repr

/-- The events of the DIAG port (R178). -/
inductive DiagEvent where
  | invalidEncoding (cell word : Word)
  | invalidWrite (cell word : Word)
  | unknownOpcode (addr op : Word)
  deriving DecidableEq, Repr

/-- The six pieces of architectural state (10_state.md), then the traffic of the ports (log entry 3)
and the parameters of rule R7 (log entry 7). -/
structure State where
  /-- `mem[0..32767]` (R30). -/
  mem : Memory
  /-- `x[0..7]` (R31). -/
  regs : Vector Word 8
  /-- The instruction pointer (R34). -/
  pc : Word
  /-- The stack, bottom first, its top the last entry (R35, R110). -/
  stack : List Word
  /-- The input buffer, first code to be read first (R36). -/
  inbuf : List Word
  /-- The run status (R37). -/
  status : Status
  /-- IN_LINE (R13): the lines the host offers, in order, that the block has not taken. -/
  inLine : List Line
  /-- OUT_CHAR (R14): the codes emitted, oldest first. -/
  outChar : List Word
  /-- DIAG (R16, R178): the events raised, oldest first. -/
  diag : List DiagEvent
  /-- The parameters of rule R7; no instruction changes them. -/
  cfg : Config
  deriving DecidableEq, Repr

/-- Why a step answers no next state.  Neither is the spec's `Faulted`, which is a `Status` of a next
state; both say that the spec enables no step here. -/
inductive Fault where
  /-- Raised by `step` when `status` is not `Running`: the run is over and nothing changes until a
  reset (R20, R90, R177).  Safe: no next state is claimed. Log entry 5. -/
  | notRunning (st : Status)
  /-- Raised by `inp` when the input buffer is empty and the host offers no line: the block is blocked,
  neither halted nor faulted, its state is unchanged, and stepping the same state with a line offered
  goes on (R97, R151).  Safe: no next state is claimed. Log entry 6. -/
  | waitingForLine
  deriving DecidableEq, Repr

/-- Why an instruction is refused. -/
inductive Refusal where
  /-- Raised by an arm of `exec` whose instruction has no meaning yet; no arm raises it now.  Safe. -/
  | notModelled (mnemonic : String)
  deriving DecidableEq, Repr

/-- The state after reset (R41, R200) with no image loaded, which is the state the empty image leaves
(R203): log entry 8. -/
def State.reset : State where
  mem := []
  regs := Vector.replicate 8 0
  pc := 0
  stack := []
  inbuf := []
  status := .running
  inLine := []
  outChar := []
  diag := []
  cfg := defaultConfig

end Sys2Proof.Machine
end

