-- ==== Sys2Proof/Machine/Ops.lean ====
section
/-! DEFINITION. The named operations over memory, registers, the stack, the ports and the run status
(20_memory.md, 42_stack.md, 45_io.md, 60_exceptions.md).  The block takes no exception into program
code (R182); what takes that place, `halt R` and `raise F`, is one operation each here. -/

namespace Sys2Proof.Machine

/-- What executing an instruction answers. -/
abbrev Answer := Host.Outcome State Fault Refusal

/-! ### Memory as a list -/

/-- The word an address holds; an address not listed holds 0 (R30, R200). -/
def Memory.read : Memory → Nat → Word
  | [], _ => 0
  | (b, v) :: m, a => if b = a then v else Memory.read m a

/-- The list without the entries of an address. -/
def Memory.clear (m : Memory) (a : Nat) : Memory := m.filter (fun c => decide (c.1 ≠ a))

/-- The list with one entry more, before the first entry of a higher address. -/
def Memory.place : Memory → Nat → Word → Memory
  | [], a, v => [(a, v)]
  | (b, w) :: m, a, v => if a < b then (a, v) :: (b, w) :: m else (b, w) :: Memory.place m a v

/-- The memory with one word changed, in canonical form: writing 0 removes the entry. -/
def Memory.write (m : Memory) (a : Nat) (v : Word) : Memory :=
  if v = 0 then m.clear a else (m.clear a).place a v

/-- The canonical form: addresses strictly rising and in 0..32767, and no entry that holds what an
unlisted address holds. -/
def Memory.wf : Memory → Bool
  | [] => true
  | (a, v) :: m => decide (a < memWords) && decide (v ≠ 0) && m.all (fun c => decide (a < c.1)) && Memory.wf m

/-! ### Memory words and registers of a state -/

/-- `mem[a]` (R9, R30). -/
def State.memAt (s : State) (a : Nat) : Word := s.mem.read a

/-- `mem[a] <- v`, for an address the caller knows to exist. -/
def State.store (a : Nat) (v : Word) (s : State) : State := { s with mem := s.mem.write a v }

/-- `MemRead(a, 1)` (R52): `none` where it raises `AddressOutOfRange(a)`. -/
def State.memRead (s : State) (a : Word) : Option Word :=
  if a.toNat < memWords then some (s.memAt a.toNat) else none

/-- `MemWrite(a, 1, v)` (R53): `none` where it raises `AddressOutOfRange(a)`. -/
def State.memWrite (a v : Word) (s : State) : Option State :=
  if a.toNat < memWords then some (s.store a.toNat v) else none

/-- `x[k]` (R31). -/
def State.reg (s : State) (k : Fin 8) : Word := s.regs[k]

/-- `x[k] <- v` (R31): no register is hardwired. -/
def State.setReg (k : Fin 8) (v : Word) (s : State) : State := { s with regs := s.regs.set k v }

/-! ### The instruction pointer -/

/-- `pc <- t` (R34). -/
def State.setPc (t : Word) (s : State) : State := { s with pc := t }

/-- The fall-through `pc <- pc + n` (R73). -/
def State.advance (n : Word) (s : State) : State := s.setPc (s.pc + n)

/-- `cell(i)`, the address operand word i came from (R10). -/
def State.cell (s : State) (i : Word) : Word := s.pc + i

/-! ### Stops and the diagnostic log -/

/-- `Log(e)` (R178), for a list of events: no state a step reads changes. -/
def State.log (es : List DiagEvent) (s : State) : State := { s with diag := s.diag ++ es }

/-- `halt R` (R175): the status, and nothing else, changes. -/
def State.halt (r : HaltReason) (s : State) : State := { s with status := .halted r }

/-- `raise F` (R176): the status, and nothing else, changes. -/
def State.raise (k : FaultKind) (s : State) : State := { s with status := .faulted k }

/-! ### The stack controller -/

/-- Whether `Push` raises `StackOverflow` (R110). -/
def State.stackFull (s : State) : Bool :=
  match s.cfg.stackCapacity with
  | none => false
  | some n => decide (s.stack.length = n)

/-- `Push(v)` (R110): `none` where it raises `StackOverflow`. -/
def State.push (v : Word) (s : State) : Option State :=
  if s.stackFull then none else some { s with stack := s.stack ++ [v] }

/-- `Pop()` (R111): the top entry and the state without it, `none` where `IsEmpty()`. -/
def State.pop (s : State) : Option (Word × State) :=
  match s.stack.getLast? with
  | none => none
  | some v => some (v, { s with stack := s.stack.dropLast })

/-! ### The character I/O serializer -/

/-- `ReadChar()` (R150): the next code and the state without it, after taking a line from IN_LINE if
the buffer is empty; `none` where it waits (R151). -/
def State.readChar (s : State) : Option (Word × State) :=
  match s.inbuf, s.inLine with
  | c :: cs, _ => some (c, { s with inbuf := cs })
  | [], l :: ls => some (l.first, { s with inbuf := l.rest, inLine := ls })
  | [], [] => none

/-- `WriteChar(c)` (R152): the code goes out unchanged, whatever it is. -/
def State.writeChar (c : Word) (s : State) : State := { s with outChar := s.outChar ++ [c] }

end Sys2Proof.Machine
end

