-- ==== Sys2Proof/Machine/Flags.lean ====
section
/-! DEFINITION. The block has no flags, condition codes or predicate registers (rule R38).  What takes
their place is here: the 0 or 1 that `eq` and `gt` write to an ordinary destination, and the test of an
ordinary value by `jt` and `jf`. -/

namespace Sys2Proof.Machine

/-- 1 for true and 0 for false (R120, R121). -/
def truthWord (b : Bool) : Word := if b then 1 else 0

/-- The result of `eq` (R120). -/
def eqResult (x y : Word) : Word := truthWord (decide (x = y))

/-- The result of `gt` (R121): an unsigned comparison of 16-bit values. -/
def gtResult (x y : Word) : Word := truthWord (decide (y.toNat < x.toNat))

/-- The condition `jt` takes and `jf` does not (R141, R142): any nonzero word. -/
def isTrue (x : Word) : Bool := decide (x ≠ 0)

end Sys2Proof.Machine
end

