-- ==== Sys2Proof/Syntax.lean ====
section
/-! DEFINITION. The instructions: one constructor per row of spec/opcode_table.json, named by its
mnemonic (`in` is a word of Lean, so that row's constructor is `inp`).  Operands are in the order
a, b, c of rule R70; which are destinations and which are values is rule R74. -/

namespace Sys2Proof

/-- An operand word after `Classify` (R50): what the word names. -/
inductive Operand where
  /-- A word in 0..32767, denoting itself, or, as a destination, the memory word at that address. -/
  | literal (v : BitVec 15)
  /-- A word in 32768..32775, naming register `k`. -/
  | register (k : Fin 8)
  /-- A word in 32776..65535, kept whole because the DIAG events carry it (R178). -/
  | invalid (w : Word)
  deriving DecidableEq, Repr

/-- The 22 opcodes (R2, R80). -/
inductive Instr where
  | halt
  | set (a b : Operand)
  | push (a : Operand)
  | pop (a : Operand)
  | eq (a b c : Operand)
  | gt (a b c : Operand)
  | jmp (a : Operand)
  | jt (a b : Operand)
  | jf (a b : Operand)
  | add (a b c : Operand)
  | mult (a b c : Operand)
  | mod (a b c : Operand)
  | and (a b c : Operand)
  | or (a b c : Operand)
  | not (a b : Operand)
  | rmem (a b : Operand)
  | wmem (a b : Operand)
  | call (a : Operand)
  | ret
  | out (a : Operand)
  | inp (a : Operand)
  | noop
  deriving DecidableEq, Repr

end Sys2Proof
end

