-- ==== Sys2Proof/Decode.lean ====
section
/-! DEFINITION. The decoder and the encoder (30_encoding.md).  An instruction is an opcode word and
zero to three operand words (R70, R72); every word is one whole field (R71). -/

namespace Sys2Proof

/-- `Classify` (R50). -/
def classify (w : Word) : Operand :=
  if w.toNat ≤ 32767 then .literal (w.setWidth 15)
  else if w.toNat ≤ 32775 then .register (Fin.ofNat 8 (w.toNat - 32768))
  else .invalid w

/-- The raw word an operand came from: the inverse of `classify`. -/
def Operand.word : Operand → Word
  | .literal v => v.setWidth 16
  | .register k => BitVec.ofNat 16 (32768 + k.val)
  | .invalid w => w

/-- The four formats F0 to F3 (R72), each with the instruction its operands make. -/
inductive Format where
  | f0 (i : Instr)
  | f1 (i : Operand → Instr)
  | f2 (i : Operand → Operand → Instr)
  | f3 (i : Operand → Operand → Operand → Instr)

/-- The opcode map (R72, R80): the whole opcode word chooses the instruction, and no word above 21
is one (R81). -/
def formatOf (op : Word) : Option Format :=
  match op.toNat with
  | 0 => some (.f0 .halt)
  | 1 => some (.f2 .set)
  | 2 => some (.f1 .push)
  | 3 => some (.f1 .pop)
  | 4 => some (.f3 .eq)
  | 5 => some (.f3 .gt)
  | 6 => some (.f1 .jmp)
  | 7 => some (.f2 .jt)
  | 8 => some (.f2 .jf)
  | 9 => some (.f3 .add)
  | 10 => some (.f3 .mult)
  | 11 => some (.f3 .mod)
  | 12 => some (.f3 .and)
  | 13 => some (.f3 .or)
  | 14 => some (.f2 .not)
  | 15 => some (.f2 .rmem)
  | 16 => some (.f2 .wmem)
  | 17 => some (.f1 .call)
  | 18 => some (.f0 .ret)
  | 19 => some (.f1 .out)
  | 20 => some (.f1 .inp)
  | 21 => some (.f0 .noop)
  | _ => none

/-- Why a run of words is no instruction. -/
inductive DecodeError where
  /-- The opcode word is in 22..65535 (R81). -/
  | unknownOpcode (op : Word)
  /-- The words end before word number `i` of the instruction (0 is the opcode word). -/
  | missingWord (i : Nat)
  deriving DecidableEq, Repr

/-- The instruction at the head of a list of words, and the words after it.  The opcode is looked at
before any operand word (R92), and the first word that is missing is the one named (R91). -/
def decode : List Word → Except DecodeError (Instr × List Word)
  | [] => .error (.missingWord 0)
  | op :: ws =>
    match formatOf op, ws with
    | none, _ => .error (.unknownOpcode op)
    | some (.f0 i), rest => .ok (i, rest)
    | some (.f1 i), a :: rest => .ok (i (classify a), rest)
    | some (.f1 _), [] => .error (.missingWord 1)
    | some (.f2 i), a :: b :: rest => .ok (i (classify a) (classify b), rest)
    | some (.f2 _), [_] => .error (.missingWord 2)
    | some (.f2 _), [] => .error (.missingWord 1)
    | some (.f3 i), a :: b :: c :: rest => .ok (i (classify a) (classify b) (classify c), rest)
    | some (.f3 _), [_, _] => .error (.missingWord 3)
    | some (.f3 _), [_] => .error (.missingWord 2)
    | some (.f3 _), [] => .error (.missingWord 1)

/-- The words of an instruction (R70, R72, R80). -/
def encode : Instr → List Word
  | .halt => [0]
  | .set a b => [1, a.word, b.word]
  | .push a => [2, a.word]
  | .pop a => [3, a.word]
  | .eq a b c => [4, a.word, b.word, c.word]
  | .gt a b c => [5, a.word, b.word, c.word]
  | .jmp a => [6, a.word]
  | .jt a b => [7, a.word, b.word]
  | .jf a b => [8, a.word, b.word]
  | .add a b c => [9, a.word, b.word, c.word]
  | .mult a b c => [10, a.word, b.word, c.word]
  | .mod a b c => [11, a.word, b.word, c.word]
  | .and a b c => [12, a.word, b.word, c.word]
  | .or a b c => [13, a.word, b.word, c.word]
  | .not a b => [14, a.word, b.word]
  | .rmem a b => [15, a.word, b.word]
  | .wmem a b => [16, a.word, b.word]
  | .call a => [17, a.word]
  | .ret => [18]
  | .out a => [19, a.word]
  | .inp a => [20, a.word]
  | .noop => [21]

/-- The four words of an opcode-table word: word `j` is bits 16j+15..16j, and every bit from `nbits`
up is 0.  Memory is addressed by word, so no byte order enters (R55). -/
def tableWords (nbits w : Nat) : List Word :=
  let bits := w % 2 ^ nbits
  [BitVec.ofNat 16 bits, BitVec.ofNat 16 (bits >>> 16), BitVec.ofNat 16 (bits >>> 32),
    BitVec.ofNat 16 (bits >>> 48)]

/-- What the decoder reads from an opcode-table word. -/
def decodeTableWord (nbits w : Nat) : Option Instr :=
  match decode (tableWords nbits w) with
  | .ok (i, _) => some i
  | .error _ => none

end Sys2Proof
end

