-- ==== Sys2Proof/Machine/Operands.lean ====
section
/-! DEFINITION. The two ways an operand is resolved (30_encoding.md): `Value(i)` (R76) and
`WriteDest(i, v)` (R78).  There is no other operand form (R75). -/

namespace Sys2Proof.Machine

/-- The value of a value operand (R75, R76): a literal is itself, a register gives its whole stored
word, unclassified (R33), and an invalid word gives the SENTINEL. -/
def State.valueOf (s : State) : Operand → Word
  | .literal v => v.setWidth 16
  | .register k => s.reg k
  | .invalid _ => sentinel

/-- What resolving the value operand at `cell` logs (R76). -/
def valueEvents (cell : Word) : Operand → List DiagEvent
  | .literal _ => []
  | .register _ => []
  | .invalid w => [.invalidEncoding cell w]

/-- `Value(i)` (R76): the value, and the state with what it logs. -/
def State.value (i : Word) (o : Operand) (s : State) : Word × State :=
  (s.valueOf o, s.log (valueEvents (s.cell i) o))

/-- `WriteDest(i, v)` (R78): a literal names a memory word, which exists (R79), a register is written,
and a write to an invalid word is logged and discarded (R172). -/
def State.writeDest (i : Word) (o : Operand) (v : Word) (s : State) : State :=
  match o with
  | .literal w => s.store w.toNat v
  | .register k => s.setReg k v
  | .invalid w => s.log [.invalidWrite (s.cell i) w]

end Sys2Proof.Machine
end

