-- ==== Sys2Proof/Machine/Alu.lean ====
section
/-! DEFINITION. The 16-bit ALU (43_alu.md): `eq`, `gt`, `add`, `mult`, `mod`, `and`, `or`, `not`. -/

namespace Sys2Proof.Machine

/-- The result of `add` (R122): the exact sum reduced modulo 32768. -/
def addResult (x y : Word) : Word := BitVec.ofNat 16 ((x.toNat + y.toNat) % arithModulus)

/-- The result of `mult` (R123): the exact product reduced modulo 32768. -/
def multResult (x y : Word) : Word := BitVec.ofNat 16 ((x.toNat * y.toNat) % arithModulus)

/-- The result of `mod` (R126) for a divisor that is not 0: the unsigned remainder, not reduced. -/
def modResult (x y : Word) : Word := BitVec.ofNat 16 (x.toNat % y.toNat)

/-- The result of `not` (R129): the complement of bits 14..0, bit 15 being 0. -/
def notResult (x : Word) : Word := ~~~x &&& notMask

/-- The shape of a three-operand ALU instruction: b and c are resolved in that order, then a is
written (R60, R94). -/
def aluBinary (f : Word → Word → Word) (a b c : Operand) (s : State) : Answer :=
  let (x, s1) := s.value 2 b
  let (y, s2) := s1.value 3 c
  .next ((s2.writeDest 1 a (f x y)).advance 4)

/-- R120: `eq a b c`. -/
def execEq (a b c : Operand) (s : State) : Answer := aluBinary eqResult a b c s

/-- R121: `gt a b c`. -/
def execGt (a b c : Operand) (s : State) : Answer := aluBinary gtResult a b c s

/-- R122: `add a b c`. -/
def execAdd (a b c : Operand) (s : State) : Answer := aluBinary addResult a b c s

/-- R123: `mult a b c`. -/
def execMult (a b c : Operand) (s : State) : Answer := aluBinary multResult a b c s

/-- R126: `mod a b c`; a divisor of 0 faults before anything is written (D5). -/
def execMod (a b c : Operand) (s : State) : Answer :=
  let (x, s1) := s.value 2 b
  let (y, s2) := s1.value 3 c
  if y = 0 then .next (s2.raise .divideByZero)
  else .next ((s2.writeDest 1 a (modResult x y)).advance 4)

/-- R127: `and a b c`, not masked. -/
def execAnd (a b c : Operand) (s : State) : Answer := aluBinary (fun x y => x &&& y) a b c s

/-- R128: `or a b c`, not masked. -/
def execOr (a b c : Operand) (s : State) : Answer := aluBinary (fun x y => x ||| y) a b c s

/-- R129: `not a b`. -/
def execNot (a b : Operand) (s : State) : Answer :=
  let (x, s1) := s.value 2 b
  .next ((s1.writeDest 1 a (notResult x)).advance 3)

end Sys2Proof.Machine
end

