-- ==== Sys2Proof/Machine/CharIO.lean ====
section
/-! DEFINITION. `out` and `in` (45_io.md), and the host's side of the IN_LINE and OUT_CHAR ports. -/

namespace Sys2Proof

/-- The codes of a line, in typed order (R13). -/
def Line.codes (l : Line) : List Word := l.first :: l.rest

/-- The check of R13 on codes: the last is the newline code and no other is. -/
def endsInItsOnlyNewline : List Word → Bool
  | [] => false
  | [c] => decide (c = Machine.newlineCode)
  | c :: cs => decide (c ≠ Machine.newlineCode) && endsInItsOnlyNewline cs

/-- A line IN_LINE may carry (R13, D25). -/
def Line.wf (l : Line) : Bool := endsInItsOnlyNewline l.codes

end Sys2Proof

namespace Sys2Proof.Machine

/-- R153: `out a`. -/
def execOut (a : Operand) (s : State) : Answer :=
  let (c, s1) := s.value 1 a
  .next ((s1.writeChar c).advance 2)

/-- R154: `in a`; with no code to read the step does not happen (R97, R151). -/
def execInp (a : Operand) (s : State) : Answer :=
  match s.readChar with
  | none => .fault .waitingForLine
  | some (c, s1) => .next ((s1.writeDest 1 a c).advance 2)

/-- The host offers one line more on IN_LINE (R13): it may do so between any two steps. -/
def State.offerLine (l : Line) (s : State) : State := { s with inLine := s.inLine ++ [l] }

/-- The host offers the lines INPUT_CODEC makes of a text (R7, D9), those that are lines (D25). -/
def State.offerText (text : String) (s : State) : State :=
  { s with inLine := s.inLine ++ (Config.inputCodec text).filter Line.wf }

/-- What the operator is shown of the codes emitted so far, by OUTPUT_CODEC (R7, D10). -/
def State.shownText (s : State) : List String := s.outChar.map Config.outputCodec

end Sys2Proof.Machine
end

