-- ==== Sys2Proof/Machine/ControlTransfer.lean ====
section
/-! DEFINITION. `jmp`, `jt`, `jf`, `call` and `ret` (44_control_transfer.md).  A target is an absolute
word address and is not checked here: the next fetch faults on one above 32767 (R145). -/

namespace Sys2Proof.Machine

/-- R140: `jmp a`. -/
def execJmp (a : Operand) (s : State) : Answer :=
  let (t, s1) := s.value 1 a
  .next (s1.setPc t)

/-- R141: `jt a b`; both operands are resolved, taken or not (D13). -/
def execJt (a b : Operand) (s : State) : Answer :=
  let (x, s1) := s.value 1 a
  let (t, s2) := s1.value 2 b
  .next (if isTrue x then s2.setPc t else s2.advance 3)

/-- R142: `jf a b`; both operands are resolved, taken or not (D13). -/
def execJf (a b : Operand) (s : State) : Answer :=
  let (x, s1) := s.value 1 a
  let (t, s2) := s1.value 2 b
  .next (if isTrue x then s2.advance 3 else s2.setPc t)

/-- R143: `call a`. -/
def execCall (a : Operand) (s : State) : Answer :=
  let (t, s1) := s.value 1 a
  match s1.push (s1.pc + 2) with
  | none => .next (s1.raise .stackOverflow)
  | some s2 => .next (s2.setPc t)

/-- R144: `ret`; on an empty stack a halt, not a fault (R174). -/
def execRet (s : State) : Answer :=
  match s.pop with
  | none => .next (s.halt .returnUnderflow)
  | some (t, s1) => .next (s1.setPc t)

end Sys2Proof.Machine
end

