-- ==== Sys2Proof/Machine/DataMovement.lean ====
section
/-! DEFINITION. `set`, `rmem` and `wmem` (41_data_movement.md). -/

namespace Sys2Proof.Machine

/-- R100: `set a b`. -/
def execSet (a b : Operand) (s : State) : Answer :=
  let (v, s1) := s.value 2 b
  .next ((s1.writeDest 1 a v).advance 3)

/-- R101: `rmem a b` with RMEM_REGISTER_MODE = Indirect. -/
def rmemIndirect (a b : Operand) (s : State) : Answer :=
  let (addr, s1) := s.value 2 b
  match s1.memRead addr with
  | none => .next (s1.raise (.addressOutOfRange addr))
  | some v => .next ((s1.writeDest 1 a v).advance 3)

/-- The accessor `readMemoryOperand` (R103): a literal is an address, a register gives its value, an
invalid word gives the SENTINEL. -/
def State.memoryOperand (s : State) : Operand → Word
  | .literal w => s.memAt w.toNat
  | .register k => s.reg k
  | .invalid _ => sentinel

/-- R103: `rmem a b` with RMEM_REGISTER_MODE = Direct. -/
def rmemDirect (a b : Operand) (s : State) : Answer :=
  .next (((s.log (valueEvents (s.cell 2) b)).writeDest 1 a (s.memoryOperand b)).advance 3)

/-- R101 and R103: `rmem a b`. -/
def execRmem (a b : Operand) (s : State) : Answer :=
  match s.cfg.rmemMode with
  | .indirect => rmemIndirect a b s
  | .direct => rmemDirect a b s

/-- R102: `wmem a b`. -/
def execWmem (a b : Operand) (s : State) : Answer :=
  let (addr, s1) := s.value 1 a
  let (v, s2) := s1.value 2 b
  match s2.memWrite addr v with
  | none => .next (s2.raise (.addressOutOfRange addr))
  | some s3 => .next (s3.advance 3)

end Sys2Proof.Machine
end

