-- ==== Sys2Proof/Machine/HaltNoop.lean ====
section
/-! DEFINITION. `halt`, `noop`, and the two ways the dispatch loop stops before any instruction runs
(40_dispatch.md). -/

namespace Sys2Proof.Machine

/-- R93: `halt`. -/
def execHalt (s : State) : Answer := .next (s.halt .haltInstruction)

/-- R95: `noop`. -/
def execNoop (s : State) : Answer := .next (s.advance 1)

/-- R92: an opcode word above 21 is logged and halts the block. -/
def execUnknownOpcode (op : Word) (s : State) : Answer :=
  .next ((s.log [.unknownOpcode s.pc op]).halt (.unknownOpcode op))

/-- R90, R91 (D4): a fetch at an address above 32767 faults. -/
def execFetchFault (a : Word) (s : State) : Answer := .next (s.raise (.addressOutOfRange a))

end Sys2Proof.Machine
end

