-- ==== Sys2Proof/Machine/Stack.lean ====
section
/-! DEFINITION. `push` and `pop` (42_stack.md). -/

namespace Sys2Proof.Machine

/-- R112: `push a`. -/
def execPush (a : Operand) (s : State) : Answer :=
  let (v, s1) := s.value 1 a
  match s1.push v with
  | none => .next (s1.raise .stackOverflow)
  | some s2 => .next (s2.advance 2)

/-- R113: `pop a`; on an empty stack the underflow comes before the destination is looked at (D15). -/
def execPop (a : Operand) (s : State) : Answer :=
  match s.pop with
  | none => .next (s.raise .stackUnderflow)
  | some (v, s1) => .next ((s1.writeDest 1 a v).advance 2)

end Sys2Proof.Machine
end

