-- ==== Sys2Proof/Machine/Fetch.lean ====
section
/-! DEFINITION. Fetching the instruction at `pc` (40_dispatch.md rules R90 to R92), and the converse,
placing words where a fetch finds them. -/

namespace Sys2Proof.Machine

/-- What the fetch of an instruction gives. -/
inductive Fetched where
  | instr (i : Instr)
  | unknownOpcode (op : Word)
  | outOfRange (a : Word)
  deriving DecidableEq, Repr

/-- The memory words from address `a` on, at most `n`, up to the top of memory. -/
def State.window (s : State) : Nat → Nat → List Word
  | 0, _ => []
  | n + 1, a => if a < memWords then s.memAt a :: s.window n (a + 1) else []

/-- Phases 1 and 2 of a step (R90 to R92, R94).  Reading memory has no side effect (R57), so the up to
four words an instruction can have are read first; the first one missing is the address that faults. -/
def State.fetch (s : State) : Fetched :=
  match decode (s.window 4 s.pc.toNat) with
  | .ok (i, _) => .instr i
  | .error (.unknownOpcode op) => .unknownOpcode op
  | .error (.missingWord k) => .outOfRange (s.pc + BitVec.ofNat 16 k)

/-- Words placed in memory from address `a` on, up to the top of memory. -/
def State.placeWords : Nat → List Word → State → State
  | _, [], s => s
  | a, w :: ws, s => if a < memWords then State.placeWords (a + 1) ws (s.store a w) else s

end Sys2Proof.Machine
end

