-- ==== Sys2Proof/Machine/Step.lean ====
section
/-! DEFINITION. One step of the fetch-decode-dispatch loop (rule R96). -/

namespace Sys2Proof.Machine

/-- R90 to R96: a step is taken only while the status is `Running`. -/
def step (s : State) : Host.Outcome State Fault Refusal :=
  match s.status with
  | .running =>
    match s.fetch with
    | .instr i => exec i s
    | .unknownOpcode op => execUnknownOpcode op s
    | .outOfRange a => execFetchFault a s
  | .halted r => .fault (.notRunning (.halted r))
  | .faulted k => .fault (.notRunning (.faulted k))

/-- The state with an opcode-table word's instruction at `pc`, as far as memory reaches (log entry 8);
nothing else changes. -/
def State.withFetchWord (s : State) (nbits w : Nat) : State :=
  s.placeWords s.pc.toNat (tableWords nbits w)

end Sys2Proof.Machine
end

