-- ==== Sys2Proof/Machine/Boot.lean ====
section
/-! DEFINITION. Reset and the image load (70_reset_and_hazards.md).  An image is accepted only by a
reset machine (R12, R200), so the load is a function of the image and the parameters alone. -/

namespace Sys2Proof.Machine

/-- The whole words of an image (R202): low byte first, a final odd byte discarded. -/
def wordsOfBytes : List Byte → List Word
  | lo :: hi :: rest => BitVec.ofNat 16 (lo.toNat + 256 * hi.toNat) :: wordsOfBytes rest
  | [_] => []
  | [] => []

/-- The memory whose words from an address on are those given, and 0 elsewhere (R202). -/
def Memory.ofWords : Nat → List Word → Memory
  | _, [] => []
  | a, w :: ws => if w = 0 then Memory.ofWords (a + 1) ws else (a, w) :: Memory.ofWords (a + 1) ws

/-- Memory after `ImageTooLarge` (R202, D23): any words at all, one free value for each address. -/
@[irreducible] def memoryAfterImageTooLarge (image : List Byte) : Memory :=
  Memory.ofWords 0 ((List.range memWords).map (Config.memoryAfterImageTooLarge image))

/-- Reset, then the image load (R201 to R203). -/
def State.boot (cfg : Config) (image : List Byte) : State :=
  if maxImageWords < (wordsOfBytes image).length then
    { State.reset with
      cfg := cfg, mem := memoryAfterImageTooLarge image, status := .faulted .imageTooLarge }
  else
    { State.reset with cfg := cfg, mem := Memory.ofWords 0 (wordsOfBytes image) }

end Sys2Proof.Machine
end

