-- ==== Sys2Proof/Safety.lean ====
section
/-! DEFINITION. The terms claims are stated in: the invariant of the state, when the block waits, and
what the spec's rules say of an operand, a destination and the rest of the state, written from the rules
beside the machine's own operations so that a claim compares the two. -/

namespace Sys2Proof.Machine

/-! ### The invariant -/

/-- What every step and every boot keeps: memory in canonical form (log entry 1) inside 0..32767 (R30), a stack
within its capacity (R35, R110), IN_LINE carrying only lines (R13), and an input buffer that holds
nothing or the end of a line, its only newline last (R36, R157). -/
structure State.Inv (s : State) : Prop where
  memory : s.mem.wf = true
  stack : ∀ n, s.cfg.stackCapacity = some n → s.stack.length ≤ n
  lines : ∀ l ∈ s.inLine, l.wf = true
  buffer : s.inbuf = [] ∨ endsInItsOnlyNewline s.inbuf = true

/-! ### The instruction at `pc` -/

/-- The opcode word of the step (R90). -/
def State.opcode (s : State) : Word := s.memAt s.pc.toNat

/-- Operand word `i` of the instruction at `pc` (R91), classified (R50). -/
def State.operandAt (s : State) (i : Nat) : Operand := classify (s.memAt (s.pc.toNat + i))

/-- The number of operand words of an opcode, the table of R72; none for an opcode word above 21. -/
def operandCount (op : Nat) : Option Nat :=
  if op ∈ [0, 18, 21] then some 0
  else if op ∈ [2, 3, 6, 17, 19, 20] then some 1
  else if op ∈ [1, 7, 8, 14, 15, 16] then some 2
  else if op ∈ [4, 5, 9, 10, 11, 12, 13] then some 3
  else none

/-- Memory holds the words of `i` from `pc` on, all of them at addresses 0..32767 (R70). -/
def State.holdsInstr (s : State) (i : Instr) : Prop :=
  ∀ k, ∀ h : k < (encode i).length,
    s.pc.toNat + k ≤ 32767 ∧ s.memAt (s.pc.toNat + k) = (encode i)[k]

/-- Every word of the instruction at `pc` is at an address 0..32767, so its fetch faults nowhere (R90,
R91). -/
def State.fetchable (s : State) : Prop :=
  ∃ n, operandCount s.opcode.toNat = some n ∧ s.pc.toNat + n ≤ 32767

/-- The one state in which a running block has no step (R97, R151): an `in` whose words can be fetched,
an empty buffer, and no line on offer. -/
def State.waits (s : State) : Prop :=
  s.status = .running ∧ s.pc.toNat + 1 ≤ 32767 ∧ s.opcode = 20 ∧ s.inbuf = [] ∧ s.inLine = []

/-! ### Operands as the rules give them -/

/-- The value of a value operand (R75, R76). -/
def operandValue (s : State) : Operand → Word
  | .literal v => BitVec.ofNat 16 v.toNat
  | .register k => s.regs[k]
  | .invalid _ => 50000

/-- The event an invalid value operand logs (R76). -/
def encodingEvent (cell : Word) : Operand → List DiagEvent
  | .literal _ => []
  | .register _ => []
  | .invalid w => [.invalidEncoding cell w]

/-- The numbers of an opcode's value operands, in operand order: the table of R74. -/
def valueOperands (op : Nat) : List Nat :=
  if op ∈ [2, 6, 17, 19] then [1]
  else if op ∈ [1, 14, 15] then [2]
  else if op ∈ [7, 8, 16] then [1, 2]
  else if op ∈ [4, 5, 9, 10, 11, 12, 13] then [2, 3]
  else []

/-- What resolving the value operands of the instruction at `pc` logs, in operand order (R94, R179). -/
def State.encodingEvents (s : State) : List DiagEvent :=
  (valueOperands s.opcode.toNat).flatMap fun i => encodingEvent (s.pc + BitVec.ofNat 16 i) (s.operandAt i)

/-- The event an invalid destination logs (R78). -/
def writeEvent (cell : Word) : Operand → List DiagEvent
  | .literal _ => []
  | .register _ => []
  | .invalid w => [.invalidWrite cell w]

/-- `v` has been written to destination `a` and nowhere else (R78, R79): to one memory word, to one
register, or, for an invalid word, to nothing. -/
def Delivered (a : Operand) (v : Word) (s t : State) : Prop :=
  match a with
  | .literal w =>
      t.memAt w.toNat = v ∧ (∀ x, x ≠ w.toNat → t.memAt x = s.memAt x) ∧ t.regs = s.regs
  | .register k => t.reg k = v ∧ (∀ j, j ≠ k → t.reg j = s.reg j) ∧ t.mem = s.mem
  | .invalid _ => t.regs = s.regs ∧ t.mem = s.mem

/-- The stack, the input buffer, the status, the ports IN_LINE and OUT_CHAR and the parameters are as
they were. -/
def KeepsTheRest (s t : State) : Prop :=
  t.stack = s.stack ∧ t.inbuf = s.inbuf ∧ t.status = s.status ∧ t.inLine = s.inLine ∧
    t.outChar = s.outChar ∧ t.cfg = s.cfg

/-- `t` is what an instruction of `n` words leaves of `s` that logs `es` while it resolves its values,
delivers `v` to `a`, and does nothing else (R94). -/
def WritesResult (a : Operand) (v : Word) (n : Word) (es : List DiagEvent) (s t : State) : Prop :=
  Delivered a v s t ∧ t.pc = s.pc + n ∧
    t.diag = s.diag ++ es ++ writeEvent (s.pc + 1) a ∧ KeepsTheRest s t

/-! ### The ports -/

/-- The codes the host has delivered or offered that the block has not consumed, in typed order (R155). -/
def State.pendingCodes (s : State) : List Word := s.inbuf ++ s.inLine.flatMap Line.codes

/-- The state without the history of OUT_CHAR and DIAG, which no rule reads (R40). -/
def State.withoutTraces (s : State) : State := { s with outChar := [], diag := [] }

/-- The state with the histories of `s` before its own. -/
def State.afterTracesOf (s u : State) : State :=
  { u with outChar := s.outChar ++ u.outChar, diag := s.diag ++ u.diag }

/-- The first answer is the second with the histories of `s` put before what it emitted and logged. -/
def SameAfterTracesOf (s : State) : Answer → Answer → Prop
  | .next t, .next u => t = s.afterTracesOf u
  | .fault f, .fault g => f = g
  | .refused r, .refused q => r = q
  | _, _ => False

end Sys2Proof.Machine
end

