-- ==== Sys2Proof/Certificates/Slice0/Obligations.lean ====
section
/-! DEFINITION. The statements for the provers.  A docstring names the rule of the spec a statement
formalises, and, where a clause is the spec's own decision (D<n>) or the model's choice, says so. -/

open Sys2Proof Sys2Proof.Machine

/-! ### Encoding -/

/-- R84: the words the spec writes out decode to the instructions it names. -/
def Obligations.SpecWordsDecodeAsWritten : Prop :=
  decode [9, 32768, 4, 32769, 19, 32768, 0] =
      .ok (.add (.register 0) (.literal 4) (.register 1), [19, 32768, 0]) ∧
    decode [19, 32768, 0] = .ok (.out (.register 0), [0]) ∧
    decode [0] = .ok (.halt, [])

/-- R50: each word is classified by its range, and keeps its value or its register number. -/
def Obligations.ClassifyPartitionsWords : Prop :=
  ∀ w : Word,
    (w.toNat ≤ 32767 → ∃ v : BitVec 15, classify w = .literal v ∧ v.toNat = w.toNat) ∧
    (32768 ≤ w.toNat → w.toNat ≤ 32775 →
      ∃ k : Fin 8, classify w = .register k ∧ k.val = w.toNat - 32768) ∧
    (32776 ≤ w.toNat → classify w = .invalid w)

/-- R70, R72, R80: no bit of a well-formed instruction is lost between its words and its decoding. -/
def Obligations.DecodeInvertsEncode : Prop :=
  ∀ (i : Instr) (rest : List Word), i.wf = true → decode (encode i ++ rest) = .ok (i, rest)

/-- R71, R80: what decodes is well formed, and its words are exactly the ones it was read from. -/
def Obligations.EncodeInvertsDecode : Prop :=
  ∀ (ws rest : List Word) (i : Instr),
    decode ws = .ok (i, rest) → i.wf = true ∧ encode i ++ rest = ws

/-- R72, R82: the opcode alone chooses how many operand words follow, whatever they are; with enough
words the instruction is read.  With too few, the first one missing is named: the smallest i of R91 and
R179 (the spec's decision D4), found in a list of words as log entry 14 says. -/
def Obligations.OpcodeAloneChoosesTheFormat : Prop :=
  ∀ (op : Word) (ws : List Word) (n : Nat), operandCount op.toNat = some n →
    (n ≤ ws.length → ∃ i, decode (op :: ws) = .ok (i, ws.drop n) ∧ encode i = op :: ws.take n) ∧
    (ws.length < n → decode (op :: ws) = .error (.missingWord (ws.length + 1)))

/-- R81: no opcode word in 22..65535 is an instruction, whatever follows it; every one in 0..21 is, as
soon as the operand words its format asks for follow it, and otherwise the first one missing is named
(the spec's decision D4, log entry 14). -/
def Obligations.OnlyTheTwentyTwoOpcodesDecode : Prop :=
  ∀ (op : Word) (ws : List Word),
    (21 < op.toNat → decode (op :: ws) = .error (.unknownOpcode op)) ∧
    (op.toNat ≤ 21 → ∃ n, operandCount op.toNat = some n ∧
      ((∃ i rest, decode (op :: ws) = .ok (i, rest)) ↔ n ≤ ws.length) ∧
      (ws.length < n → decode (op :: ws) = .error (.missingWord (ws.length + 1))))

/-! ### The step -/

/-- R91, R96: when memory holds a well-formed instruction's words at `pc`, the step is that
instruction's meaning, and nothing is added around it. -/
def Obligations.StepRunsTheInstructionAtPc : Prop :=
  ∀ (i : Instr) (s : State), i.wf = true → s.status = .running → s.holdsInstr i →
    step s = exec i s

/-- R92, with `pc` unchanged by the spec's decision D6: an unknown opcode is logged and halts. -/
def Obligations.UnknownOpcodeHalts : Prop :=
  ∀ s : State, s.status = .running → s.pc.toNat ≤ 32767 → 21 < s.opcode.toNat →
    step s = .next { s with
      status := .halted (.unknownOpcode s.opcode), diag := s.diag ++ [.unknownOpcode s.pc s.opcode] }

/-- The spec's decision D4 (R90): a fetch at `pc` above 32767 faults and changes nothing else. -/
def Obligations.OpcodeFetchAboveTopFaults : Prop :=
  ∀ s : State, s.status = .running → 32767 < s.pc.toNat →
    step s = .next { s with status := .faulted (.addressOutOfRange s.pc) }

/-- The spec's decision D4 (R91): an instruction whose operand words run past the top faults at address
32768 and changes nothing else. -/
def Obligations.OperandFetchAboveTopFaults : Prop :=
  ∀ (s : State) (n : Nat), s.status = .running → s.pc.toNat ≤ 32767 →
    operandCount s.opcode.toNat = some n → 32767 < s.pc.toNat + n →
    step s = .next { s with status := .faulted (.addressOutOfRange 32768) }

/-- R90, R97: a step is enabled in exactly the running states that do not wait for a line. That a
disabled step answers no next state is the model's choice (log entries 5 and 6). -/
def Obligations.StepEnabledUnlessStoppedOrWaiting : Prop :=
  ∀ s : State, (∃ t, step s = .next t) ↔ (s.status = .running ∧ ¬ s.waits)

/-- R151, R177: the two ways a step is not enabled, each under its name (log entries 5 and 6). -/
def Obligations.DisabledStepsSayWhy : Prop :=
  ∀ s : State,
    (s.status ≠ .running → step s = .fault (.notRunning s.status)) ∧
    (s.waits → step s = .fault .waitingForLine)

/-- Every opcode has its meaning: no step is refused. -/
def Obligations.NoStepIsRefused : Prop :=
  ∀ (s : State) (r : Refusal), step s ≠ .refused r

/-- R176, R179 (D4, D12, D16): a faulting step leaves everything as it was but the status, and logs what
comes before the fault: the InvalidEncoding events of the value operands once the fetch has succeeded
(none for a `pop`, which has no value operand), and nothing for a fetch fault. -/
def Obligations.FaultsArePrecise : Prop :=
  ∀ (s t : State) (k : FaultKind), step s = .next t → t.status = .faulted k →
    (s.fetchable → t = { s with status := .faulted k, diag := s.diag ++ s.encodingEvents }) ∧
    (¬ s.fetchable → t = { s with status := .faulted k })

/-- R175 (D6): a halting step leaves everything as it was, `pc` too, but the status, and logs only an
unknown opcode. -/
def Obligations.HaltsChangeOnlyTheStatus : Prop :=
  ∀ (s t : State) (r : HaltReason), step s = .next t → t.status = .halted r →
    t = { s with status := .halted r, diag := t.diag } ∧
      (t.diag = s.diag ∨ r = .unknownOpcode s.opcode ∧ t.diag = s.diag ++ [.unknownOpcode s.pc s.opcode])

/-- R34: an instruction a step runs lies whole in memory, so its fall-through address is at most 32768;
the spec derives this from R90 and R91. -/
def Obligations.FetchedInstructionLiesInMemory : Prop :=
  ∀ (s : State) (i : Instr), s.fetch = .instr i → s.pc.toNat + (encode i).length ≤ 32768

/-- R93, with `pc` unchanged by the spec's decision D6. -/
def Obligations.HaltStopsTheBlock : Prop :=
  ∀ s : State, exec .halt s = .next { s with status := .halted .haltInstruction }

/-- R95: `noop` changes `pc` alone. -/
def Obligations.NoopOnlyAdvances : Prop :=
  ∀ s : State, exec .noop s = .next { s with pc := s.pc + 1 }

/-! ### Reset and the image load -/

/-- R41, with the statuses of R37 (the spec's decision D20), the image's words of R202 and the zero
memory of R200 (the spec's decision D24): the whole reset state, for every image and every choice of the
parameters.  That the other state is at its reset value after ImageTooLarge is log entry 9. -/
def Obligations.ResetValues : Prop :=
  ∀ (cfg : Config) (image : List Byte),
    let s := State.boot cfg image
    (∀ k, s.reg k = 0) ∧ s.pc = 0 ∧ s.stack = [] ∧ s.inbuf = [] ∧
      (image.length / 2 ≤ 32768 → s.status = .running ∧
        (∀ n lo hi, image[2 * n]? = some lo → image[2 * n + 1]? = some hi →
          (s.memAt n).toNat = lo.toNat + 256 * hi.toNat) ∧
        (∀ n, image.length / 2 ≤ n → s.memAt n = 0)) ∧
      (32768 < image.length / 2 → s.status = .faulted .imageTooLarge)

/-- R203: an empty image leaves the reset state (log entry 8), whose first step halts at address 0, as
the spec derives. -/
def Obligations.EmptyImageHaltsAtOnce : Prop :=
  State.boot defaultConfig [] = State.reset ∧
    step State.reset = .next { State.reset with status := .halted .haltInstruction }

/-- R41: the invariant holds after reset, the state of log entry 8.  The canonical form of memory (log
entry 1) and an IN_LINE with no line on offer (log entry 3) are the model's choices. -/
def Obligations.ResetMeetsTheInvariant : Prop := State.reset.Inv

/-- R202, R203: the invariant holds after every boot, for every image.  The canonical form of memory is
the model's (log entry 1), so is an IN_LINE with no line on offer (log entry 3), and after a too large
image memory is the free value of log entry 9. -/
def Obligations.EveryBootMeetsTheInvariant : Prop :=
  ∀ (cfg : Config) (image : List Byte), (State.boot cfg image).Inv

/-- R30, R35, R110, R13, R36, R157: the invariant is kept by every step, and by the host's offering one
line more.  The canonical form of memory is the model's (log entry 1), so are the lines on offer as a list
(log entry 3), and the newline code is presumed (log entry 10). -/
def Obligations.EveryStepKeepsTheInvariant : Prop :=
  ∀ s : State, s.Inv →
    (∀ t, step s = .next t → t.Inv) ∧ ∀ l : Line, l.wf = true → (s.offerLine l).Inv

/-! ### Data movement -/

/-- R100. -/
def Obligations.SetCopiesItsValue : Prop :=
  ∀ (a b : Operand) (s : State), ∃ t, exec (.set a b) s = .next t ∧
    WritesResult a (operandValue s b) 3 (encodingEvent (s.pc + 2) b) s t

/-- R101 (RMEM_REGISTER_MODE Indirect), with the fault above 32767 by the spec's decision D4. -/
def Obligations.RmemIndirectReadsMemory : Prop :=
  ∀ (a b : Operand) (s : State), s.cfg.rmemMode = .indirect →
    ((operandValue s b).toNat ≤ 32767 → ∃ t, exec (.rmem a b) s = .next t ∧
      WritesResult a (s.memAt (operandValue s b).toNat) 3 (encodingEvent (s.pc + 2) b) s t) ∧
    (32767 < (operandValue s b).toNat → exec (.rmem a b) s = .next { s with
      status := .faulted (.addressOutOfRange (operandValue s b)),
      diag := s.diag ++ encodingEvent (s.pc + 2) b })

/-- R103 (RMEM_REGISTER_MODE Direct, D17): a literal is an address, any other operand gives its value,
and nothing faults. -/
def Obligations.RmemDirectReadsOperand : Prop :=
  ∀ (a b : Operand) (s : State), s.cfg.rmemMode = .direct →
    ∃ t v, exec (.rmem a b) s = .next t ∧
      (∀ w : BitVec 15, b = .literal w → v = s.memAt w.toNat) ∧
      (∀ k : Fin 8, b = .register k → v = s.reg k) ∧
      (∀ w : Word, b = .invalid w → v = 50000) ∧
      WritesResult a v 3 (encodingEvent (s.pc + 2) b) s t

/-- R102, with the fault above 32767, registers' numbers included, by the spec's decision D4. -/
def Obligations.WmemStoresAtItsAddress : Prop :=
  ∀ (a b : Operand) (s : State),
    let addr := operandValue s a
    let es := encodingEvent (s.pc + 1) a ++ encodingEvent (s.pc + 2) b
    (addr.toNat ≤ 32767 → ∃ t, exec (.wmem a b) s = .next t ∧
      t.memAt addr.toNat = operandValue s b ∧ (∀ x, x ≠ addr.toNat → t.memAt x = s.memAt x) ∧
      t.regs = s.regs ∧ t.pc = s.pc + 3 ∧ t.diag = s.diag ++ es ∧ KeepsTheRest s t) ∧
    (32767 < addr.toNat → exec (.wmem a b) s = .next { s with
      status := .faulted (.addressOutOfRange addr), diag := s.diag ++ es })

/-- R62, which the spec derives from R60 and R91: a store to the word after the instruction decides what
the very next step fetches, and a halting word, written over any other, halts it.  So for a `wmem`, for
a `set` of a literal destination, and for whatever instruction delivers a value to a literal destination
that it goes on to. -/
def Obligations.StoreIsSeenByTheNextFetch : Prop :=
  (∀ (a b : Operand) (s : State), s.status = .running → operandValue s a = s.pc + 3 →
    (s.pc + 3).toNat ≤ 32767 →
    ∃ t, exec (.wmem a b) s = .next t ∧ t.pc = s.pc + 3 ∧ t.opcode = operandValue s b ∧
      (operandValue s b = 0 → step t = .next { t with status := .halted .haltInstruction })) ∧
  (∀ (w : BitVec 15) (b : Operand) (s : State), s.status = .running → w.toNat = (s.pc + 3).toNat →
    ∃ t, exec (.set (.literal w) b) s = .next t ∧ t.pc = s.pc + 3 ∧ t.opcode = operandValue s b ∧
      (operandValue s b = 0 → step t = .next { t with status := .halted .haltInstruction })) ∧
  (∀ (i : Instr) (w : BitVec 15) (v : Word) (s t : State), exec i s = .next t → t.status = .running →
    Delivered (.literal w) v s t → t.pc.toNat = w.toNat →
    t.opcode = v ∧ (v = 0 → step t = .next { t with status := .halted .haltInstruction }))

/-! ### The stack controller -/

/-- R112, with the overflow of a finite full stack by the spec's decision D7. -/
def Obligations.PushAppendsItsValue : Prop :=
  ∀ (a : Operand) (s : State),
    (s.cfg.stackCapacity ≠ some s.stack.length → exec (.push a) s = .next { s with
      stack := s.stack ++ [operandValue s a], pc := s.pc + 2,
      diag := s.diag ++ encodingEvent (s.pc + 1) a }) ∧
    (s.cfg.stackCapacity = some s.stack.length → exec (.push a) s = .next { s with
      status := .faulted .stackOverflow, diag := s.diag ++ encodingEvent (s.pc + 1) a })

/-- R113: the top entry goes to the destination; for an invalid one it is gone all the same (D15). -/
def Obligations.PopDeliversTheTop : Prop :=
  ∀ (a : Operand) (s : State) (below : List Word) (v : Word), s.stack = below ++ [v] →
    ∃ t, exec (.pop a) s = .next t ∧ t.stack = below ∧
      WritesResult a v 2 [] { s with stack := below } t

/-- R173: `pop` on an empty stack is fatal; that this comes before its destination is looked at is the
spec's decision D15. -/
def Obligations.PopOfEmptyStackIsFatal : Prop :=
  ∀ (a : Operand) (s : State), s.stack = [] →
    exec (.pop a) s = .next { s with status := .faulted .stackUnderflow }

/-- R114, which the spec derives from R110 to R113: a push that does not overflow, then a pop: the pushed value arrives unchanged and the stack is
as it was. -/
def Obligations.PushThenPopRestores : Prop :=
  ∀ (a b : Operand) (s : State), s.cfg.stackCapacity ≠ some s.stack.length →
    ∃ t u, exec (.push a) s = .next t ∧ exec (.pop b) t = .next u ∧
      u.stack = s.stack ∧ Delivered b (operandValue s a) s u

/-! ### The ALU -/

/-- R120. -/
def Obligations.EqComparesItsValues : Prop :=
  ∀ (a b c : Operand) (s : State), ∃ t, exec (.eq a b c) s = .next t ∧
    WritesResult a (if operandValue s b = operandValue s c then 1 else 0) 4
      (encodingEvent (s.pc + 2) b ++ encodingEvent (s.pc + 3) c) s t

/-- R121; the comparison is unsigned, which the spec derives from its unsigned words. -/
def Obligations.GtComparesUnsigned : Prop :=
  ∀ (a b c : Operand) (s : State), ∃ t, exec (.gt a b c) s = .next t ∧
    WritesResult a (if (operandValue s b).toNat > (operandValue s c).toNat then 1 else 0) 4
      (encodingEvent (s.pc + 2) b ++ encodingEvent (s.pc + 3) c) s t

/-- R122. -/
def Obligations.AddReducesTheSum : Prop :=
  ∀ (a b c : Operand) (s : State), ∃ t v, exec (.add a b c) s = .next t ∧
    v.toNat = ((operandValue s b).toNat + (operandValue s c).toNat) % 32768 ∧
    WritesResult a v 4 (encodingEvent (s.pc + 2) b ++ encodingEvent (s.pc + 3) c) s t

/-- R123. -/
def Obligations.MultReducesTheProduct : Prop :=
  ∀ (a b c : Operand) (s : State), ∃ t v, exec (.mult a b c) s = .next t ∧
    v.toNat = ((operandValue s b).toNat * (operandValue s c).toNat) % 32768 ∧
    WritesResult a v 4 (encodingEvent (s.pc + 2) b ++ encodingEvent (s.pc + 3) c) s t

/-- R126, with the fault of a zero divisor by the spec's decision D5. -/
def Obligations.ModGivesTheRemainder : Prop :=
  ∀ (a b c : Operand) (s : State),
    let es := encodingEvent (s.pc + 2) b ++ encodingEvent (s.pc + 3) c
    (operandValue s c ≠ 0 → ∃ t v, exec (.mod a b c) s = .next t ∧
      v.toNat = (operandValue s b).toNat % (operandValue s c).toNat ∧ WritesResult a v 4 es s t) ∧
    (operandValue s c = 0 → exec (.mod a b c) s = .next { s with
      status := .faulted .divideByZero, diag := s.diag ++ es })

/-- R127: bit by bit, not masked. -/
def Obligations.AndIsBitwise : Prop :=
  ∀ (a b c : Operand) (s : State), ∃ t v, exec (.and a b c) s = .next t ∧
    (∀ n < 16, v.getLsbD n =
      ((operandValue s b).getLsbD n && (operandValue s c).getLsbD n)) ∧
    WritesResult a v 4 (encodingEvent (s.pc + 2) b ++ encodingEvent (s.pc + 3) c) s t

/-- R128: bit by bit, not masked. -/
def Obligations.OrIsBitwise : Prop :=
  ∀ (a b c : Operand) (s : State), ∃ t v, exec (.or a b c) s = .next t ∧
    (∀ n < 16, v.getLsbD n =
      ((operandValue s b).getLsbD n || (operandValue s c).getLsbD n)) ∧
    WritesResult a v 4 (encodingEvent (s.pc + 2) b ++ encodingEvent (s.pc + 3) c) s t

/-- R129: bits 14..0 are complemented and bit 15 of the result is 0. -/
def Obligations.NotComplementsFifteenBits : Prop :=
  ∀ (a b : Operand) (s : State), ∃ t v, exec (.not a b) s = .next t ∧
    (∀ n < 15, v.getLsbD n = !(operandValue s b).getLsbD n) ∧ v.getLsbD 15 = false ∧
    WritesResult a v 3 (encodingEvent (s.pc + 2) b) s t

/-- R125, derived by the spec from its table: when the values of the operands are at most 32767, so is
the result of every ALU instruction, whatever its destination.  `mod` by 0 has no result; that it faults
and writes nothing is the spec's decision D5 (log entry 12). -/
def Obligations.AluKeepsFifteenBits : Prop :=
  ∀ (a b c : Operand) (s : State),
    (operandValue s b).toNat ≤ 32767 → (operandValue s c).toNat ≤ 32767 →
    (∀ i ∈ [Instr.eq a b c, .gt a b c, .add a b c, .mult a b c, .and a b c, .or a b c, .not a b],
      ∃ t v, exec i s = .next t ∧ v.toNat ≤ 32767 ∧ Delivered a v s t) ∧
    (operandValue s c ≠ 0 →
      ∃ t v, exec (.mod a b c) s = .next t ∧ v.toNat ≤ 32767 ∧ Delivered a v s t) ∧
    (operandValue s c = 0 →
      ∃ t, exec (.mod a b c) s = .next t ∧ t.status = .faulted .divideByZero ∧
        t.regs = s.regs ∧ t.mem = s.mem)

/-! ### Control transfer -/

/-- R140: `jmp` sets `pc` to any value at all and nothing else; a target above 32767 faults at the next
fetch (the spec's decision D4). -/
def Obligations.JmpGoesToItsValue : Prop :=
  ∀ (a : Operand) (s : State), ∃ t, exec (.jmp a) s = .next t ∧
    t = { s with pc := operandValue s a, diag := s.diag ++ encodingEvent (s.pc + 1) a } ∧
    (s.status = .running → 32767 < (operandValue s a).toNat →
      step t = .next { t with status := .faulted (.addressOutOfRange (operandValue s a)) })

/-- R141: `jt` is taken on any nonzero condition, else falls through by 3; both operands are resolved
either way (the spec's decision D13). -/
def Obligations.JtBranchesOnNonzero : Prop :=
  ∀ (a b : Operand) (s : State), exec (.jt a b) s = .next { s with
    pc := if operandValue s a ≠ 0 then operandValue s b else s.pc + 3,
    diag := s.diag ++ (encodingEvent (s.pc + 1) a ++ encodingEvent (s.pc + 2) b) }

/-- R142: `jf` is taken on a zero condition, else falls through by 3; both operands are resolved either
way (the spec's decision D13). -/
def Obligations.JfBranchesOnZero : Prop :=
  ∀ (a b : Operand) (s : State), exec (.jf a b) s = .next { s with
    pc := if operandValue s a = 0 then operandValue s b else s.pc + 3,
    diag := s.diag ++ (encodingEvent (s.pc + 1) a ++ encodingEvent (s.pc + 2) b) }

/-- R143, with the overflow of a finite full stack by the spec's decision D7. -/
def Obligations.CallPushesTheReturnAddress : Prop :=
  ∀ (a : Operand) (s : State),
    (s.cfg.stackCapacity ≠ some s.stack.length → exec (.call a) s = .next { s with
      stack := s.stack ++ [s.pc + 2], pc := operandValue s a,
      diag := s.diag ++ encodingEvent (s.pc + 1) a }) ∧
    (s.cfg.stackCapacity = some s.stack.length → exec (.call a) s = .next { s with
      status := .faulted .stackOverflow, diag := s.diag ++ encodingEvent (s.pc + 1) a })

/-- R144: `ret` goes to the top entry, whatever pushed it, and removes it. -/
def Obligations.RetGoesToTheTop : Prop :=
  ∀ (s : State) (below : List Word) (v : Word), s.stack = below ++ [v] →
    exec .ret s = .next { s with stack := below, pc := v }

/-- R174: `ret` on an empty stack is a normal halt; `pc` stays by the spec's decision D6, and nothing is
logged (D16). -/
def Obligations.RetOnEmptyStackHalts : Prop :=
  ∀ s : State, s.stack = [] → exec .ret s = .next { s with status := .halted .returnUnderflow }

/-- R147, which the spec derives from R143 and R144: a call that does not overflow, then a `ret` with the stack as the call left it, resumes at the
instruction after the call. -/
def Obligations.CallThenRetResumes : Prop :=
  ∀ (a : Operand) (s : State), s.cfg.stackCapacity ≠ some s.stack.length →
    ∃ t, exec (.call a) s = .next t ∧
      ∀ u : State, u.stack = t.stack → exec .ret u = .next { u with stack := s.stack, pc := s.pc + 2 }

/-! ### Character I/O -/

/-- R153: one code goes out unchanged, whatever it is. -/
def Obligations.OutEmitsItsValue : Prop :=
  ∀ (a : Operand) (s : State), exec (.out a) s = .next { s with
    outChar := s.outChar ++ [operandValue s a], pc := s.pc + 2,
    diag := s.diag ++ encodingEvent (s.pc + 1) a }

/-- R154: with codes in the buffer, `in` takes the first and no line; for an invalid destination the code
is gone all the same (D14). -/
def Obligations.InTakesTheFirstBufferedCode : Prop :=
  ∀ (a : Operand) (s : State) (c : Word) (cs : List Word), s.inbuf = c :: cs →
    ∃ t, exec (.inp a) s = .next t ∧ t.inbuf = cs ∧ t.inLine = s.inLine ∧
      WritesResult a c 2 [] { s with inbuf := cs } t

/-- R150, R154: with an empty buffer and a line on offer, `in` takes that line and its first code; for an
invalid destination the code is gone all the same (D14).  The lines on offer as a list are the model's
(log entry 3). -/
def Obligations.InTakesOneLineWhenEmpty : Prop :=
  ∀ (a : Operand) (s : State) (l : Line) (ls : List Line), s.inbuf = [] → s.inLine = l :: ls →
    ∃ t, exec (.inp a) s = .next t ∧ t.inbuf = l.rest ∧ t.inLine = ls ∧
      WritesResult a l.first 2 [] { s with inbuf := l.rest, inLine := ls } t

/-- R155, R157: whatever a step does, the codes still to come are those there were, or those without the
first: codes are consumed in typed order, one at a time, and only by `in`.  The lines on offer as a list
are the model's (log entry 3). -/
def Obligations.CodesAreConsumedInTypedOrder : Prop :=
  ∀ s t : State, step s = .next t →
    t.pendingCodes = s.pendingCodes ∨
      (s.opcode = 20 ∧ ∃ c, s.pendingCodes = c :: t.pendingCodes)

/-- R13, R157: a line is taken only by an `in` with an empty buffer, and one at a time.  The lines on
offer as a list are the model's (log entry 3). -/
def Obligations.LinesAreTakenOnlyByIn : Prop :=
  ∀ s t : State, step s = .next t → t.inLine ≠ s.inLine →
    s.opcode = 20 ∧ s.inbuf = [] ∧ ∃ l, s.inLine = l :: t.inLine ∧ t.inbuf = l.rest

/-- R14, R153: a step emits the value of its operand if it is an `out` whose operand word is in memory,
exactly one code, and nothing otherwise, which the spec's other instruction rules imply.  Nothing emitted
is ever withdrawn, by the spec's decision D22 (log entry 12), and the codes emitted are kept as log entry
3 says. -/
def Obligations.OnlyOutEmitsOneCode : Prop :=
  ∀ s t : State, step s = .next t →
    t.outChar = s.outChar ++
      (if s.opcode = 19 ∧ s.pc.toNat + 1 ≤ 32767 then [operandValue s (s.operandAt 1)] else [])

/-- R156, which the spec derives from R150, R153 and R154: `in` then `out` on one register echoes the code. -/
def Obligations.InThenOutEchoes : Prop :=
  ∀ (k : Fin 8) (s : State) (c : Word) (rest : List Word),
    s.pendingCodes = c :: rest →
    ∃ t u, exec (.inp (.register k)) s = .next t ∧ exec (.out (.register k)) t = .next u ∧
      u.outChar = s.outChar ++ [c] ∧ u.pendingCodes = rest

/-! ### The whole machine -/

/-- R32: only the twelve opcodes the rule lists write a register, and each only the register its operand
a names. -/
def Obligations.RegistersChangeOnlyAsDestinations : Prop :=
  ∀ (s t : State) (k : Fin 8), step s = .next t → t.reg k ≠ s.reg k →
    s.opcode.toNat ∈ [1, 3, 4, 5, 9, 10, 11, 12, 13, 14, 15, 20] ∧ s.operandAt 1 = .register k

/-- R30: after the load, memory changes only at a literal destination or at the address of a `wmem`. -/
def Obligations.MemoryChangesOnlyWhereWritten : Prop :=
  ∀ (s t : State) (x : Nat), step s = .next t → t.memAt x ≠ s.memAt x →
    (s.opcode = 16 ∧ x = (operandValue s (s.operandAt 1)).toNat) ∨
      (s.opcode.toNat ∈ [1, 3, 4, 5, 9, 10, 11, 12, 13, 14, 15, 20] ∧
        ∃ w : BitVec 15, s.operandAt 1 = .literal w ∧ x = w.toNat)

/-- R115: only push, pop, call and ret touch the stack, each at its top by one entry. -/
def Obligations.StackChangesByOneAtItsTop : Prop :=
  ∀ s t : State, step s = .next t → t.stack ≠ s.stack →
    (s.opcode.toNat ∈ [2, 17] ∧ ∃ v, t.stack = s.stack ++ [v]) ∨
      (s.opcode.toNat ∈ [3, 18] ∧ ∃ v, s.stack = t.stack ++ [v])

/-- R40, R178 (D16): no step reads the history of OUT_CHAR or DIAG.  The histories are in State by the
model's choice (log entry 3); dropping them changes nothing else, and the step emits and logs the same. -/
def Obligations.NoStepReadsTheTraces : Prop :=
  ∀ s : State, SameAfterTracesOf s (step s) (step s.withoutTraces)
end

