-- ==== Sys2Proof/Laws/State.lean ====
section
/-! SUPPORT. What each update of the state does to each field, by `rfl`, so that no later proof unfolds a
record update. -/

namespace Sys2Proof.Machine

variable (s : State)

/-! ### store -/

@[simp] theorem State.store_mem (a : Nat) (v : Word) : (s.store a v).mem = s.mem.write a v := rfl
@[simp] theorem State.store_regs (a : Nat) (v : Word) : (s.store a v).regs = s.regs := rfl
@[simp] theorem State.store_pc (a : Nat) (v : Word) : (s.store a v).pc = s.pc := rfl
@[simp] theorem State.store_stack (a : Nat) (v : Word) : (s.store a v).stack = s.stack := rfl
@[simp] theorem State.store_inbuf (a : Nat) (v : Word) : (s.store a v).inbuf = s.inbuf := rfl
@[simp] theorem State.store_status (a : Nat) (v : Word) : (s.store a v).status = s.status := rfl
@[simp] theorem State.store_inLine (a : Nat) (v : Word) : (s.store a v).inLine = s.inLine := rfl
@[simp] theorem State.store_outChar (a : Nat) (v : Word) : (s.store a v).outChar = s.outChar := rfl
@[simp] theorem State.store_diag (a : Nat) (v : Word) : (s.store a v).diag = s.diag := rfl
@[simp] theorem State.store_cfg (a : Nat) (v : Word) : (s.store a v).cfg = s.cfg := rfl

/-! ### setReg -/

@[simp] theorem State.setReg_mem (k : Fin 8) (v : Word) : (s.setReg k v).mem = s.mem := rfl
@[simp] theorem State.setReg_regs (k : Fin 8) (v : Word) : (s.setReg k v).regs = s.regs.set k v := rfl
@[simp] theorem State.setReg_pc (k : Fin 8) (v : Word) : (s.setReg k v).pc = s.pc := rfl
@[simp] theorem State.setReg_stack (k : Fin 8) (v : Word) : (s.setReg k v).stack = s.stack := rfl
@[simp] theorem State.setReg_inbuf (k : Fin 8) (v : Word) : (s.setReg k v).inbuf = s.inbuf := rfl
@[simp] theorem State.setReg_status (k : Fin 8) (v : Word) : (s.setReg k v).status = s.status := rfl
@[simp] theorem State.setReg_inLine (k : Fin 8) (v : Word) : (s.setReg k v).inLine = s.inLine := rfl
@[simp] theorem State.setReg_outChar (k : Fin 8) (v : Word) : (s.setReg k v).outChar = s.outChar := rfl
@[simp] theorem State.setReg_diag (k : Fin 8) (v : Word) : (s.setReg k v).diag = s.diag := rfl
@[simp] theorem State.setReg_cfg (k : Fin 8) (v : Word) : (s.setReg k v).cfg = s.cfg := rfl

/-! ### setPc -/

@[simp] theorem State.setPc_mem (t : Word) : (s.setPc t).mem = s.mem := rfl
@[simp] theorem State.setPc_regs (t : Word) : (s.setPc t).regs = s.regs := rfl
@[simp] theorem State.setPc_pc (t : Word) : (s.setPc t).pc = t := rfl
@[simp] theorem State.setPc_stack (t : Word) : (s.setPc t).stack = s.stack := rfl
@[simp] theorem State.setPc_inbuf (t : Word) : (s.setPc t).inbuf = s.inbuf := rfl
@[simp] theorem State.setPc_status (t : Word) : (s.setPc t).status = s.status := rfl
@[simp] theorem State.setPc_inLine (t : Word) : (s.setPc t).inLine = s.inLine := rfl
@[simp] theorem State.setPc_outChar (t : Word) : (s.setPc t).outChar = s.outChar := rfl
@[simp] theorem State.setPc_diag (t : Word) : (s.setPc t).diag = s.diag := rfl
@[simp] theorem State.setPc_cfg (t : Word) : (s.setPc t).cfg = s.cfg := rfl

/-! ### advance -/

@[simp] theorem State.advance_mem (n : Word) : (s.advance n).mem = s.mem := rfl
@[simp] theorem State.advance_regs (n : Word) : (s.advance n).regs = s.regs := rfl
@[simp] theorem State.advance_pc (n : Word) : (s.advance n).pc = s.pc + n := rfl
@[simp] theorem State.advance_stack (n : Word) : (s.advance n).stack = s.stack := rfl
@[simp] theorem State.advance_inbuf (n : Word) : (s.advance n).inbuf = s.inbuf := rfl
@[simp] theorem State.advance_status (n : Word) : (s.advance n).status = s.status := rfl
@[simp] theorem State.advance_inLine (n : Word) : (s.advance n).inLine = s.inLine := rfl
@[simp] theorem State.advance_outChar (n : Word) : (s.advance n).outChar = s.outChar := rfl
@[simp] theorem State.advance_diag (n : Word) : (s.advance n).diag = s.diag := rfl
@[simp] theorem State.advance_cfg (n : Word) : (s.advance n).cfg = s.cfg := rfl

/-! ### log -/

@[simp] theorem State.log_mem (es : List DiagEvent) : (s.log es).mem = s.mem := rfl
@[simp] theorem State.log_regs (es : List DiagEvent) : (s.log es).regs = s.regs := rfl
@[simp] theorem State.log_pc (es : List DiagEvent) : (s.log es).pc = s.pc := rfl
@[simp] theorem State.log_stack (es : List DiagEvent) : (s.log es).stack = s.stack := rfl
@[simp] theorem State.log_inbuf (es : List DiagEvent) : (s.log es).inbuf = s.inbuf := rfl
@[simp] theorem State.log_status (es : List DiagEvent) : (s.log es).status = s.status := rfl
@[simp] theorem State.log_inLine (es : List DiagEvent) : (s.log es).inLine = s.inLine := rfl
@[simp] theorem State.log_outChar (es : List DiagEvent) : (s.log es).outChar = s.outChar := rfl
@[simp] theorem State.log_diag (es : List DiagEvent) : (s.log es).diag = s.diag ++ es := rfl
@[simp] theorem State.log_cfg (es : List DiagEvent) : (s.log es).cfg = s.cfg := rfl

/-! ### halt -/

@[simp] theorem State.halt_mem (r : HaltReason) : (s.halt r).mem = s.mem := rfl
@[simp] theorem State.halt_regs (r : HaltReason) : (s.halt r).regs = s.regs := rfl
@[simp] theorem State.halt_pc (r : HaltReason) : (s.halt r).pc = s.pc := rfl
@[simp] theorem State.halt_stack (r : HaltReason) : (s.halt r).stack = s.stack := rfl
@[simp] theorem State.halt_inbuf (r : HaltReason) : (s.halt r).inbuf = s.inbuf := rfl
@[simp] theorem State.halt_status (r : HaltReason) : (s.halt r).status = .halted r := rfl
@[simp] theorem State.halt_inLine (r : HaltReason) : (s.halt r).inLine = s.inLine := rfl
@[simp] theorem State.halt_outChar (r : HaltReason) : (s.halt r).outChar = s.outChar := rfl
@[simp] theorem State.halt_diag (r : HaltReason) : (s.halt r).diag = s.diag := rfl
@[simp] theorem State.halt_cfg (r : HaltReason) : (s.halt r).cfg = s.cfg := rfl

/-! ### raise -/

@[simp] theorem State.raise_mem (k : FaultKind) : (s.raise k).mem = s.mem := rfl
@[simp] theorem State.raise_regs (k : FaultKind) : (s.raise k).regs = s.regs := rfl
@[simp] theorem State.raise_pc (k : FaultKind) : (s.raise k).pc = s.pc := rfl
@[simp] theorem State.raise_stack (k : FaultKind) : (s.raise k).stack = s.stack := rfl
@[simp] theorem State.raise_inbuf (k : FaultKind) : (s.raise k).inbuf = s.inbuf := rfl
@[simp] theorem State.raise_status (k : FaultKind) : (s.raise k).status = .faulted k := rfl
@[simp] theorem State.raise_inLine (k : FaultKind) : (s.raise k).inLine = s.inLine := rfl
@[simp] theorem State.raise_outChar (k : FaultKind) : (s.raise k).outChar = s.outChar := rfl
@[simp] theorem State.raise_diag (k : FaultKind) : (s.raise k).diag = s.diag := rfl
@[simp] theorem State.raise_cfg (k : FaultKind) : (s.raise k).cfg = s.cfg := rfl

/-! ### writeChar -/

@[simp] theorem State.writeChar_mem (c : Word) : (s.writeChar c).mem = s.mem := rfl
@[simp] theorem State.writeChar_regs (c : Word) : (s.writeChar c).regs = s.regs := rfl
@[simp] theorem State.writeChar_pc (c : Word) : (s.writeChar c).pc = s.pc := rfl
@[simp] theorem State.writeChar_stack (c : Word) : (s.writeChar c).stack = s.stack := rfl
@[simp] theorem State.writeChar_inbuf (c : Word) : (s.writeChar c).inbuf = s.inbuf := rfl
@[simp] theorem State.writeChar_status (c : Word) : (s.writeChar c).status = s.status := rfl
@[simp] theorem State.writeChar_inLine (c : Word) : (s.writeChar c).inLine = s.inLine := rfl
@[simp] theorem State.writeChar_outChar (c : Word) : (s.writeChar c).outChar = s.outChar ++ [c] := rfl
@[simp] theorem State.writeChar_diag (c : Word) : (s.writeChar c).diag = s.diag := rfl
@[simp] theorem State.writeChar_cfg (c : Word) : (s.writeChar c).cfg = s.cfg := rfl

/-! ### offerLine -/

@[simp] theorem State.offerLine_mem (l : Line) : (s.offerLine l).mem = s.mem := rfl
@[simp] theorem State.offerLine_regs (l : Line) : (s.offerLine l).regs = s.regs := rfl
@[simp] theorem State.offerLine_pc (l : Line) : (s.offerLine l).pc = s.pc := rfl
@[simp] theorem State.offerLine_stack (l : Line) : (s.offerLine l).stack = s.stack := rfl
@[simp] theorem State.offerLine_inbuf (l : Line) : (s.offerLine l).inbuf = s.inbuf := rfl
@[simp] theorem State.offerLine_status (l : Line) : (s.offerLine l).status = s.status := rfl
@[simp] theorem State.offerLine_inLine (l : Line) : (s.offerLine l).inLine = s.inLine ++ [l] := rfl
@[simp] theorem State.offerLine_outChar (l : Line) : (s.offerLine l).outChar = s.outChar := rfl
@[simp] theorem State.offerLine_diag (l : Line) : (s.offerLine l).diag = s.diag := rfl
@[simp] theorem State.offerLine_cfg (l : Line) : (s.offerLine l).cfg = s.cfg := rfl

/-! ### Readings that are not fields -/

@[simp] theorem State.memAt_withMem (m : Memory) (a : Nat) :
    State.memAt { s with mem := m } a = m.read a := rfl
@[simp] theorem State.store_reg (a : Nat) (v : Word) (j : Fin 8) : (s.store a v).reg j = s.reg j := rfl
@[simp] theorem State.setReg_memAt (k : Fin 8) (v : Word) (x : Nat) : (s.setReg k v).memAt x = s.memAt x := rfl
@[simp] theorem State.setPc_memAt (t : Word) (x : Nat) : (s.setPc t).memAt x = s.memAt x := rfl
@[simp] theorem State.setPc_reg (t : Word) (j : Fin 8) : (s.setPc t).reg j = s.reg j := rfl
@[simp] theorem State.advance_memAt (n : Word) (x : Nat) : (s.advance n).memAt x = s.memAt x := rfl
@[simp] theorem State.advance_reg (n : Word) (j : Fin 8) : (s.advance n).reg j = s.reg j := rfl
@[simp] theorem State.log_memAt (es : List DiagEvent) (x : Nat) : (s.log es).memAt x = s.memAt x := rfl
@[simp] theorem State.log_reg (es : List DiagEvent) (j : Fin 8) : (s.log es).reg j = s.reg j := rfl
@[simp] theorem State.halt_memAt (r : HaltReason) (x : Nat) : (s.halt r).memAt x = s.memAt x := rfl
@[simp] theorem State.halt_reg (r : HaltReason) (j : Fin 8) : (s.halt r).reg j = s.reg j := rfl
@[simp] theorem State.raise_memAt (k : FaultKind) (x : Nat) : (s.raise k).memAt x = s.memAt x := rfl
@[simp] theorem State.raise_reg (k : FaultKind) (j : Fin 8) : (s.raise k).reg j = s.reg j := rfl
@[simp] theorem State.writeChar_memAt (c : Word) (x : Nat) : (s.writeChar c).memAt x = s.memAt x := rfl
@[simp] theorem State.writeChar_reg (c : Word) (j : Fin 8) : (s.writeChar c).reg j = s.reg j := rfl
@[simp] theorem State.offerLine_memAt (l : Line) (x : Nat) : (s.offerLine l).memAt x = s.memAt x := rfl
@[simp] theorem State.offerLine_reg (l : Line) (j : Fin 8) : (s.offerLine l).reg j = s.reg j := rfl

/-! ### The reset state -/

@[simp] theorem State.reset_mem : State.reset.mem = [] := rfl
@[simp] theorem State.reset_regs : State.reset.regs = Vector.replicate 8 0 := rfl
@[simp] theorem State.reset_pc : State.reset.pc = 0 := rfl
@[simp] theorem State.reset_stack : State.reset.stack = [] := rfl
@[simp] theorem State.reset_inbuf : State.reset.inbuf = [] := rfl
@[simp] theorem State.reset_status : State.reset.status = .running := rfl
@[simp] theorem State.reset_inLine : State.reset.inLine = [] := rfl
@[simp] theorem State.reset_outChar : State.reset.outChar = [] := rfl
@[simp] theorem State.reset_diag : State.reset.diag = [] := rfl
@[simp] theorem State.reset_cfg : State.reset.cfg = defaultConfig := rfl

end Sys2Proof.Machine
end

