-- ==== Sys2Proof/Laws/Memory.lean ====
section
/-! SUPPORT. Memory as a list: a read after a write, the canonical form kept by every operation, and
canonical memories that read the same are the same. -/

namespace Sys2Proof.Machine

/-! ### Reading -/

@[simp] theorem Memory.read_nil (a : Nat) : Memory.read [] a = 0 := rfl

theorem Memory.read_cons (b : Nat) (v : Word) (m : Memory) (a : Nat) :
    Memory.read ((b, v) :: m) a = if b = a then v else Memory.read m a := rfl

theorem Memory.read_clear (m : Memory) (a x : Nat) :
    Memory.read (Memory.clear m a) x = if x = a then 0 else Memory.read m x := by
  induction m with
  | nil => simp [Memory.clear]
  | cons c m ih =>
    obtain ⟨b, v⟩ := c
    by_cases hb : b = a
    · have : Memory.clear ((b, v) :: m) a = Memory.clear m a := by simp [Memory.clear, hb]
      rw [this, ih, Memory.read_cons]
      split <;> simp_all [eq_comm]
    · have : Memory.clear ((b, v) :: m) a = (b, v) :: Memory.clear m a := by simp [Memory.clear, hb]
      rw [this, Memory.read_cons, Memory.read_cons, ih]
      by_cases hx : b = x
      · simp [hx, show x ≠ a by omega]
      · simp [hx]

/-- Inserting an entry where the list has none of its address. -/
theorem Memory.read_place (m : Memory) (a x : Nat) (v : Word) (h : ∀ c ∈ m, c.1 ≠ a) :
    Memory.read (Memory.place m a v) x = if x = a then v else Memory.read m x := by
  induction m with
  | nil => simp [Memory.place, Memory.read_cons, eq_comm]
  | cons c m ih =>
    obtain ⟨b, w⟩ := c
    have hb : b ≠ a := h (b, w) List.mem_cons_self
    unfold Memory.place
    split
    · simp only [Memory.read_cons, eq_comm]
    · rw [Memory.read_cons, Memory.read_cons, ih fun c hc => h c (List.mem_cons_of_mem _ hc)]
      by_cases hx : b = x
      · simp [hx, show x ≠ a by omega]
      · simp [hx]

theorem Memory.clear_lacks (m : Memory) (a : Nat) : ∀ c ∈ Memory.clear m a, c.1 ≠ a := by
  simp [Memory.clear]

/-- R60: a read gives the latest write to the same address, and a write changes no other address. -/
@[simp] theorem Memory.read_write (m : Memory) (a x : Nat) (v : Word) :
    Memory.read (m.write a v) x = if x = a then v else Memory.read m x := by
  unfold Memory.write
  split
  · next h => rw [Memory.read_clear, h]
  · rw [Memory.read_place _ _ _ _ (Memory.clear_lacks m a), Memory.read_clear]
    split <;> rfl

/-! ### The canonical form -/

theorem Memory.wf_cons (a : Nat) (v : Word) (m : Memory) :
    Memory.wf ((a, v) :: m) = true ↔
      a < memWords ∧ v ≠ 0 ∧ (∀ c ∈ m, a < c.1) ∧ Memory.wf m = true := by
  simp [Memory.wf, and_assoc]

theorem Memory.wf_clear (m : Memory) (a : Nat) (h : m.wf = true) : (Memory.clear m a).wf = true := by
  induction m with
  | nil => simp [Memory.clear, Memory.wf]
  | cons c m ih =>
    obtain ⟨b, v⟩ := c
    obtain ⟨h1, h2, h3, h4⟩ := (Memory.wf_cons b v m).1 h
    by_cases hb : b = a
    · simpa [Memory.clear, hb] using ih h4
    · have : Memory.clear ((b, v) :: m) a = (b, v) :: Memory.clear m a := by simp [Memory.clear, hb]
      rw [this, Memory.wf_cons]
      exact ⟨h1, h2, fun c hc => h3 c (List.mem_of_mem_filter hc), ih h4⟩

theorem Memory.mem_place (m : Memory) (a : Nat) (v : Word) (c : Nat × Word) :
    c ∈ Memory.place m a v → c = (a, v) ∨ c ∈ m := by
  induction m with
  | nil => simp [Memory.place]
  | cons d m ih =>
    obtain ⟨b, w⟩ := d
    unfold Memory.place
    split
    · simp
    · intro h
      rcases List.mem_cons.1 h with h | h
      · simp [h]
      · rcases ih h with h | h <;> simp [h]

theorem Memory.wf_place (m : Memory) (a : Nat) (v : Word) (h : m.wf = true) (ha : a < memWords)
    (hv : v ≠ 0) (hn : ∀ c ∈ m, c.1 ≠ a) : (Memory.place m a v).wf = true := by
  induction m with
  | nil => simpa [Memory.place, Memory.wf, ha] using hv
  | cons d m ih =>
    obtain ⟨b, w⟩ := d
    obtain ⟨h1, h2, h3, h4⟩ := (Memory.wf_cons b w m).1 h
    have hb : b ≠ a := hn (b, w) List.mem_cons_self
    unfold Memory.place
    split
    · next hlt =>
      refine (Memory.wf_cons ..).2 ⟨ha, hv, fun c hc => ?_, h⟩
      rcases List.mem_cons.1 hc with rfl | hc
      · exact hlt
      · exact lt_trans hlt (h3 c hc)
    · refine (Memory.wf_cons ..).2 ⟨h1, h2, fun c hc => ?_,
        ih h4 fun c hc => hn c (List.mem_cons_of_mem _ hc)⟩
      rcases Memory.mem_place m a v c hc with rfl | hc
      · show b < a
        omega
      · exact h3 c hc

/-- A write to an existing address keeps the canonical form. -/
theorem Memory.wf_write (m : Memory) (a : Nat) (v : Word) (h : m.wf = true) (ha : a < memWords) :
    (m.write a v).wf = true := by
  unfold Memory.write
  split
  · exact Memory.wf_clear m a h
  · next hv => exact Memory.wf_place _ a v (Memory.wf_clear m a h) ha hv (Memory.clear_lacks m a)

/-- An address below every entry reads 0. -/
theorem Memory.read_below (m : Memory) (a : Nat) (h : ∀ c ∈ m, a < c.1) : Memory.read m a = 0 := by
  induction m with
  | nil => rfl
  | cons c m ih =>
    have hc := h c List.mem_cons_self
    rw [Memory.read_cons, if_neg (by omega)]
    exact ih fun d hd => h d (List.mem_cons_of_mem _ hd)

/-- Canonical memories that read the same everywhere are equal data. -/
theorem Memory.ext_of_read (m n : Memory) (hm : m.wf = true) (hn : n.wf = true)
    (h : ∀ a, Memory.read m a = Memory.read n a) : m = n := by
  induction m generalizing n with
  | nil =>
    cases n with
    | nil => rfl
    | cons d n =>
      obtain ⟨b, w⟩ := d
      have hb := h b
      rw [Memory.read_cons, if_pos rfl] at hb
      exact absurd hb.symm ((Memory.wf_cons b w n).1 hn).2.1
  | cons c m ih =>
    obtain ⟨a, v⟩ := c
    obtain ⟨_, hv, hlt, hm'⟩ := (Memory.wf_cons a v m).1 hm
    cases n with
    | nil =>
      have ha := h a
      rw [Memory.read_cons, if_pos rfl] at ha
      exact absurd ha hv
    | cons d n =>
      obtain ⟨b, w⟩ := d
      obtain ⟨_, hw, hlt', hn'⟩ := (Memory.wf_cons b w n).1 hn
      have ha := h a
      have hb := h b
      simp only [Memory.read_cons, if_true] at ha hb
      have hab : a = b := by
        by_contra hne
        rw [if_neg (Ne.symm hne)] at ha
        rw [if_neg hne] at hb
        rcases Nat.lt_or_ge a b with hl | hl
        · exact hv (ha.trans (Memory.read_below n a fun c hc => lt_trans hl (hlt' c hc)))
        · exact hw (hb.symm.trans
            (Memory.read_below m b fun c hc => lt_of_le_of_lt hl (hlt c hc)))
      subst hab
      rw [if_pos rfl] at ha
      subst ha
      congr 1
      refine ih n hm' hn' fun x => ?_
      have hx := h x
      simp only [Memory.read_cons] at hx
      by_cases hax : a = x
      · subst hax
        rw [Memory.read_below m a hlt, Memory.read_below n a hlt']
      · simpa [hax] using hx

/-! ### The image load -/

theorem Memory.mem_ofWords (ws : List Word) (a : Nat) (c : Nat × Word) :
    c ∈ Memory.ofWords a ws → a ≤ c.1 := by
  induction ws generalizing a with
  | nil => simp [Memory.ofWords]
  | cons w ws ih =>
    unfold Memory.ofWords
    split
    · intro h
      exact Nat.le_of_succ_le (ih (a + 1) h)
    · intro h
      rcases List.mem_cons.1 h with rfl | h
      · exact le_rfl
      · exact Nat.le_of_succ_le (ih (a + 1) h)

/-- Words that fit below the top make a canonical memory. -/
theorem Memory.wf_ofWords (ws : List Word) (a : Nat) (h : a + ws.length ≤ memWords) :
    (Memory.ofWords a ws).wf = true := by
  induction ws generalizing a with
  | nil => rfl
  | cons w ws ih =>
    simp only [List.length_cons] at h
    have hrest := ih (a + 1) (by omega)
    unfold Memory.ofWords
    split
    · exact hrest
    · next hw => exact (Memory.wf_cons ..).2 ⟨by omega, hw, fun c hc => Memory.mem_ofWords ws (a + 1) c hc, hrest⟩

/-- Word number n of the words loaded from address a is at address a + n, and every other address
reads 0. -/
theorem Memory.read_ofWords (ws : List Word) (a x : Nat) :
    Memory.read (Memory.ofWords a ws) x = if a ≤ x then ws.getD (x - a) 0 else 0 := by
  induction ws generalizing a with
  | nil => simp [Memory.ofWords]
  | cons w ws ih =>
    have step : Memory.read (Memory.ofWords a (w :: ws)) x =
        if a = x then w else Memory.read (Memory.ofWords (a + 1) ws) x := by
      by_cases hw : w = 0
      · simp only [Memory.ofWords, hw, if_true]
        split
        · rw [ih, if_neg (by omega)]
        · rfl
      · simp only [Memory.ofWords, hw, if_false, Memory.read_cons]
    rw [step, ih]
    rcases Nat.lt_trichotomy a x with h | h | h
    · rw [if_neg (by omega), if_pos (by omega), if_pos (by omega),
        show x - a = (x - (a + 1)) + 1 by omega, List.getD_cons_succ]
    · subst h
      simp
    · rw [if_neg (by omega), if_neg (by omega), if_neg (by omega)]

end Sys2Proof.Machine
end

