-- ==== Sys2Proof/Laws/Ops.lean ====
section
/-! SUPPORT. One lemma for each shared operation that says everything it can do. -/

namespace Sys2Proof.Machine

variable (s t : State)

/-! ### Memory and registers -/

@[simp] theorem State.store_memAt (a x : Nat) (v : Word) :
    (s.store a v).memAt x = if x = a then v else s.memAt x := Memory.read_write s.mem a x v

@[simp] theorem State.setReg_reg (k j : Fin 8) (v : Word) :
    (s.setReg k v).reg j = if j = k then v else s.reg j := by
  simp only [State.reg, State.setReg, Fin.getElem_fin, Vector.getElem_set]
  by_cases h : j = k
  · simp [h]
  · rw [if_neg (fun e => h (Fin.ext e.symm)), if_neg h]

theorem State.memRead_of_lt (a : Word) (h : a.toNat < memWords) :
    s.memRead a = some (s.memAt a.toNat) := if_pos h

theorem State.memRead_of_ge (a : Word) (h : memWords ≤ a.toNat) : s.memRead a = none :=
  if_neg (by omega)

theorem State.memWrite_of_lt (a v : Word) (h : a.toNat < memWords) :
    s.memWrite a v = some (s.store a.toNat v) := if_pos h

theorem State.memWrite_of_ge (a v : Word) (h : memWords ≤ a.toNat) : s.memWrite a v = none :=
  if_neg (by omega)

/-! ### The stack -/

theorem State.stackFull_iff : s.stackFull = true ↔ s.cfg.stackCapacity = some s.stack.length := by
  unfold State.stackFull
  cases s.cfg.stackCapacity <;> simp [eq_comm]

theorem State.push_of_full (v : Word) (h : s.cfg.stackCapacity = some s.stack.length) :
    s.push v = none := if_pos (s.stackFull_iff.2 h)

theorem State.push_of_room (v : Word) (h : s.cfg.stackCapacity ≠ some s.stack.length) :
    s.push v = some { s with stack := s.stack ++ [v] } := if_neg fun hf => h (s.stackFull_iff.1 hf)

/-- `Push` either raises on a full stack or appends its value, and does nothing else. -/
theorem State.push_eq_some (v : Word) :
    s.push v = some t ↔
      s.cfg.stackCapacity ≠ some s.stack.length ∧ t = { s with stack := s.stack ++ [v] } := by
  by_cases h : s.cfg.stackCapacity = some s.stack.length
  · simp [s.push_of_full v h, h]
  · simp [s.push_of_room v h, h, eq_comm]

theorem State.pop_of_empty (h : s.stack = []) : s.pop = none := by
  simp [State.pop, h]

theorem State.pop_of_concat (below : List Word) (v : Word) (h : s.stack = below ++ [v]) :
    s.pop = some (v, { s with stack := below }) := by
  simp [State.pop, h]

/-- `Pop` takes the last entry, and does nothing else. -/
theorem State.pop_eq_some (v : Word) :
    s.pop = some (v, t) ↔ ∃ below, s.stack = below ++ [v] ∧ t = { s with stack := below } := by
  rcases List.eq_nil_or_concat s.stack with h | ⟨below, w, h⟩
  · simp [s.pop_of_empty h, h]
  · rw [List.concat_eq_append] at h
    rw [s.pop_of_concat below w h, h]
    constructor
    · intro e
      obtain ⟨rfl, rfl⟩ := Prod.mk.inj (Option.some.inj e)
      exact ⟨below, rfl, rfl⟩
    · rintro ⟨b, hb, rfl⟩
      obtain ⟨rfl, hw⟩ := List.append_inj' hb rfl
      simp_all

theorem State.pop_eq_none : s.pop = none ↔ s.stack = [] := by
  rcases List.eq_nil_or_concat s.stack with h | ⟨below, w, h⟩
  · simp [s.pop_of_empty h, h]
  · rw [List.concat_eq_append] at h
    simp [s.pop_of_concat below w h, h]

/-! ### The serializer -/

/-- `ReadChar` takes the first code of the buffer, or of the next line when the buffer is empty, and does
nothing else. -/
theorem State.readChar_eq_some (c : Word) :
    s.readChar = some (c, t) ↔
      (∃ cs, s.inbuf = c :: cs ∧ t = { s with inbuf := cs }) ∨
      (s.inbuf = [] ∧ ∃ l ls, s.inLine = l :: ls ∧ c = l.first ∧
        t = { s with inbuf := l.rest, inLine := ls }) := by
  unfold State.readChar
  cases hb : s.inbuf with
  | cons d ds => simp [eq_comm, and_comm]
  | nil =>
    cases hl : s.inLine with
    | nil => simp
    | cons l ls => simp [eq_comm, and_comm]

theorem State.readChar_eq_none : s.readChar = none ↔ s.inbuf = [] ∧ s.inLine = [] := by
  unfold State.readChar
  cases s.inbuf <;> cases s.inLine <;> simp

/-! ### Operands -/

@[simp] theorem State.valueOf_eq (o : Operand) : s.valueOf o = operandValue s o := by
  cases o with
  | literal v => exact BitVec.eq_of_toNat_eq (by simp [State.valueOf, operandValue])
  | register k => rfl
  | invalid w => rfl

@[simp] theorem valueEvents_eq (cell : Word) (o : Operand) :
    valueEvents cell o = encodingEvent cell o := by
  cases o <;> rfl

/-- `Value(i)` gives the operand's value and logs its event, and does nothing else. -/
theorem State.value_eq (i : Word) (o : Operand) :
    s.value i o = (operandValue s o, s.log (encodingEvent (s.pc + i) o)) := by
  simp [State.value, State.cell]

@[simp] theorem operandValue_log (es : List DiagEvent) (o : Operand) :
    operandValue (s.log es) o = operandValue s o := by
  cases o <;> rfl

@[simp] theorem State.log_log (es fs : List DiagEvent) : (s.log es).log fs = s.log (es ++ fs) := by
  simp [State.log]

@[simp] theorem State.log_nil : s.log [] = s := by simp [State.log]

/-! ### What a destination write leaves alone -/

@[simp] theorem State.writeDest_pc (i : Word) (o : Operand) (v : Word) :
    (s.writeDest i o v).pc = s.pc := by
  cases o <;> rfl

@[simp] theorem State.writeDest_stack (i : Word) (o : Operand) (v : Word) :
    (s.writeDest i o v).stack = s.stack := by
  cases o <;> rfl

@[simp] theorem State.writeDest_inbuf (i : Word) (o : Operand) (v : Word) :
    (s.writeDest i o v).inbuf = s.inbuf := by
  cases o <;> rfl

@[simp] theorem State.writeDest_status (i : Word) (o : Operand) (v : Word) :
    (s.writeDest i o v).status = s.status := by
  cases o <;> rfl

@[simp] theorem State.writeDest_inLine (i : Word) (o : Operand) (v : Word) :
    (s.writeDest i o v).inLine = s.inLine := by
  cases o <;> rfl

@[simp] theorem State.writeDest_outChar (i : Word) (o : Operand) (v : Word) :
    (s.writeDest i o v).outChar = s.outChar := by
  cases o <;> rfl

@[simp] theorem State.writeDest_cfg (i : Word) (o : Operand) (v : Word) :
    (s.writeDest i o v).cfg = s.cfg := by
  cases o <;> rfl

/-- A destination write keeps the canonical form: a literal is an existing address. -/
theorem State.writeDest_wf (i : Word) (o : Operand) (v : Word) (h : s.mem.wf = true) :
    (s.writeDest i o v).mem.wf = true := by
  cases o with
  | literal w => exact Memory.wf_write s.mem w.toNat v h w.isLt
  | register k => exact h
  | invalid w => exact h

/-- A memory write keeps the canonical form wherever it does not raise. -/
theorem State.memWrite_wf (a v : Word) (h : s.mem.wf = true) (hw : s.memWrite a v = some t) :
    t.mem.wf = true := by
  unfold State.memWrite at hw
  split at hw
  · next ha =>
    cases hw
    exact Memory.wf_write s.mem a.toNat v h ha
  · cases hw

/-- `WriteDest(i, v)` delivers its value to the operand, logs an invalid one, and does nothing else. -/
theorem State.writeDest_effect (i : Word) (o : Operand) (v : Word) :
    Delivered o v s (s.writeDest i o v) ∧ (s.writeDest i o v).pc = s.pc ∧
      (s.writeDest i o v).diag = s.diag ++ writeEvent (s.pc + i) o ∧
      KeepsTheRest s (s.writeDest i o v) := by
  cases o with
  | literal w => simp +contextual [State.writeDest, Delivered, writeEvent, KeepsTheRest]
  | register k => simp +contextual [State.writeDest, Delivered, writeEvent, KeepsTheRest]
  | invalid w => simp [State.writeDest, Delivered, writeEvent, KeepsTheRest, State.cell]

/-- Resolving values, writing the destination and falling through: the shape of every instruction that
has a destination. -/
theorem State.writesResult (a : Operand) (v n : Word) (es : List DiagEvent) :
    WritesResult a v n es s (((s.log es).writeDest 1 a v).advance n) := by
  obtain ⟨hd, hpc, hdiag, _⟩ := (s.log es).writeDest_effect 1 a v
  refine ⟨?_, congrArg (· + n) hpc, by simpa using hdiag, by simp [KeepsTheRest]⟩
  cases a <;> simpa [Delivered] using hd

end Sys2Proof.Machine
end

