-- ==== Sys2Proof/Laws/Decode.lean ====
section
/-! SUPPORT. Operand words and their classes, and fetching. -/

namespace Sys2Proof

theorem classify_of_le (w : Word) (h : w.toNat ≤ 32767) : classify w = .literal (w.setWidth 15) := if_pos h

theorem classify_of_register (w : Word) (h : 32768 ≤ w.toNat) (h' : w.toNat ≤ 32775) :
    classify w = .register (Fin.ofNat 8 (w.toNat - 32768)) := by
  rw [classify, if_neg (by omega), if_pos h']

theorem classify_of_invalid (w : Word) (h : 32776 ≤ w.toNat) : classify w = .invalid w := by
  rw [classify, if_neg (by omega), if_neg (by omega)]

/-- The word of a class is the word that was classified. -/
@[simp] theorem word_classify (w : Word) : (classify w).word = w := by
  rcases Nat.lt_or_ge 32775 w.toNat with h | h
  · rw [classify_of_invalid w h]
    rfl
  · rcases Nat.lt_or_ge 32767 w.toNat with h' | h'
    · rw [classify_of_register w h' h]
      apply BitVec.eq_of_toNat_eq
      simp only [Operand.word, BitVec.toNat_ofNat, Fin.val_ofNat]
      omega
    · rw [classify_of_le w h']
      apply BitVec.eq_of_toNat_eq
      simp only [Operand.word, BitVec.toNat_setWidth]
      omega

@[simp] theorem classify_wf (w : Word) : (classify w).wf = true := by
  rcases Nat.lt_or_ge 32775 w.toNat with h | h
  · rw [classify_of_invalid w h]
    simp only [Operand.wf, decide_eq_true_eq]
    omega
  · rcases Nat.lt_or_ge 32767 w.toNat with h' | h'
    · rw [classify_of_register w h' h]
      rfl
    · rw [classify_of_le w h']
      rfl

/-- A well-formed operand is the class of its word. -/
theorem classify_word (o : Operand) (h : o.wf = true) : classify o.word = o := by
  cases o with
  | literal v =>
    have hv := v.isLt
    rw [classify_of_le]
    · congr 1
      apply BitVec.eq_of_toNat_eq
      simp only [Operand.word, BitVec.toNat_setWidth]
      omega
    · simp only [Operand.word, BitVec.toNat_setWidth]
      omega
  | register k =>
    have hk := k.isLt
    have hw : (Operand.register k).word.toNat = 32768 + k.val := by
      simp only [Operand.word, BitVec.toNat_ofNat]
      omega
    have hn : Fin.ofNat 8 (32768 + k.val - 32768) = k := Fin.ext (by simp only [Fin.val_ofNat]; omega)
    rw [classify_of_register _ (by omega) (by omega), hw, hn]
  | invalid w => exact classify_of_invalid w (by simpa [Operand.wf] using h)

/-! ### The opcode map -/

open Machine in
/-- An opcode word with a format is at most 21. -/
theorem le_of_operandCount (op n : Nat) (h : operandCount op = some n) : op ≤ 21 := by
  by_contra hlt
  simp only [operandCount, List.mem_cons, List.not_mem_nil, or_false] at h
  split_ifs at h <;> omega

open Machine in
/-- Everything the opcode map can answer: nothing above 21, and below it one of the four formats, each
with an instruction of that opcode. -/
theorem formatOf_cases (op : Word) :
    (21 < op.toNat ∧ formatOf op = none) ∨
    (∃ i, formatOf op = some (.f0 i) ∧ operandCount op.toNat = some 0 ∧
      encode i = [op] ∧ i.wf = true) ∨
    (∃ f, formatOf op = some (.f1 f) ∧ operandCount op.toNat = some 1 ∧
      ∀ a, encode (f a) = [op, a.word] ∧ (f a).wf = a.wf) ∨
    (∃ f, formatOf op = some (.f2 f) ∧ operandCount op.toNat = some 2 ∧
      ∀ a b, encode (f a b) = [op, a.word, b.word] ∧ (f a b).wf = (a.wf && b.wf)) ∨
    (∃ f, formatOf op = some (.f3 f) ∧ operandCount op.toNat = some 3 ∧
      ∀ a b c, encode (f a b c) = [op, a.word, b.word, c.word] ∧
        (f a b c).wf = (a.wf && b.wf && c.wf)) := by
  rcases Nat.lt_or_ge 21 op.toNat with h | h
  · refine .inl ⟨h, ?_⟩
    unfold formatOf
    split <;> first | omega | rfl
  · have hop : op = BitVec.ofNat 16 op.toNat := by simp
    generalize op.toNat = n at h hop
    subst hop
    interval_cases n <;> simp [formatOf, encode, Instr.wf, operandCount]

theorem decode_of_none (op : Word) (ws : List Word) (h : formatOf op = none) :
    decode (op :: ws) = .error (.unknownOpcode op) := by
  simp only [decode, h]

theorem decode_of_f0 (op : Word) (ws : List Word) (i : Instr) (h : formatOf op = some (.f0 i)) :
    decode (op :: ws) = .ok (i, ws) := by
  simp only [decode, h]

namespace Machine

variable (s : State)

@[simp] theorem State.window_zero (a : Nat) : s.window 0 a = [] := rfl

theorem State.window_succ (n a : Nat) :
    s.window (n + 1) a = if a < memWords then s.memAt a :: s.window n (a + 1) else [] := rfl

/-- Above the top there is nothing to fetch. -/
theorem State.window_of_ge (n a : Nat) (h : memWords ≤ a) : s.window n a = [] := by
  cases n with
  | zero => rfl
  | succ n => rw [State.window_succ, if_neg (Nat.not_lt.2 h)]

/-- The first word of a fetch below the top is the opcode word. -/
theorem State.window_at_pc (n : Nat) (h : s.pc.toNat < memWords) :
    s.window (n + 1) s.pc.toNat = s.opcode :: s.window n (s.pc.toNat + 1) := by
  rw [State.window_succ, if_pos h]
  rfl

/-- The window of a state is one word for each address below the top. -/
theorem State.length_window (n a : Nat) : (s.window n a).length = min n (memWords - a) := by
  induction n generalizing a with
  | zero => simp
  | succ n ih =>
    rw [State.window_succ]
    split
    · rw [List.length_cons, ih]
      omega
    · simp only [List.length_nil]
      omega

/-- Its words are the memory words. -/
theorem State.getElem_window (n a k : Nat) (h : k < (s.window n a).length) :
    (s.window n a)[k] = s.memAt (a + k) := by
  induction n generalizing a k with
  | zero => simp at h
  | succ n ih =>
    by_cases ha : a < memWords
    · have hw : s.window (n + 1) a = s.memAt a :: s.window n (a + 1) := by
        rw [State.window_succ, if_pos ha]
      cases k with
      | zero => simp [hw]
      | succ k =>
        simp only [hw, List.getElem_cons_succ]
        rw [ih, show a + 1 + k = a + (k + 1) by omega]
    · rw [State.window_succ, if_neg ha] at h
      simp at h

@[simp] theorem State.log_window (es : List DiagEvent) (n a : Nat) :
    (s.log es).window n a = s.window n a := by
  induction n generalizing a with
  | zero => rfl
  | succ n ih => simp [State.window_succ, ih]

end Machine

end Sys2Proof
end

