-- ==== Sys2Proof/Laws/Exec.lean ====
section
/-! SUPPORT. What each meaning answers, in the terms of Safety.lean; what a step is, by what it fetches. -/

namespace Sys2Proof.Machine

variable (s : State)

/-! ### The meanings with a destination -/

theorem aluBinary_eq (f : Word → Word → Word) (a b c : Operand) :
    aluBinary f a b c s = .next (((s.log (encodingEvent (s.pc + 2) b ++
      encodingEvent (s.pc + 3) c)).writeDest 1 a (f (operandValue s b) (operandValue s c))).advance 4) := by
  simp [aluBinary, State.value_eq]

theorem aluBinary_writes (f : Word → Word → Word) (a b c : Operand) :
    ∃ t, aluBinary f a b c s = .next t ∧
      WritesResult a (f (operandValue s b) (operandValue s c)) 4
        (encodingEvent (s.pc + 2) b ++ encodingEvent (s.pc + 3) c) s t := by
  exact ⟨_, aluBinary_eq s f a b c, s.writesResult a _ 4 _⟩

theorem execSet_eq (a b : Operand) :
    execSet a b s = .next (((s.log (encodingEvent (s.pc + 2) b)).writeDest 1 a
      (operandValue s b)).advance 3) := by
  simp [execSet, State.value_eq]

theorem execNot_eq (a b : Operand) :
    execNot a b s = .next (((s.log (encodingEvent (s.pc + 2) b)).writeDest 1 a
      (notResult (operandValue s b))).advance 3) := by
  simp [execNot, State.value_eq]

theorem execMod_eq (a b c : Operand) :
    execMod a b c s =
      let s2 := s.log (encodingEvent (s.pc + 2) b ++ encodingEvent (s.pc + 3) c)
      if operandValue s c = 0 then .next (s2.raise .divideByZero)
      else .next ((s2.writeDest 1 a (modResult (operandValue s b) (operandValue s c))).advance 4) := by
  simp [execMod, State.value_eq]

theorem rmemIndirect_eq (a b : Operand) :
    rmemIndirect a b s =
      let s1 := s.log (encodingEvent (s.pc + 2) b)
      if (operandValue s b).toNat < memWords then
        .next ((s1.writeDest 1 a (s.memAt (operandValue s b).toNat)).advance 3)
      else .next (s1.raise (.addressOutOfRange (operandValue s b))) := by
  simp only [rmemIndirect, State.value_eq, State.memRead, State.log_memAt]
  split <;> simp_all

theorem rmemDirect_eq (a b : Operand) :
    rmemDirect a b s = .next (((s.log (encodingEvent (s.pc + 2) b)).writeDest 1 a
      (s.memoryOperand b)).advance 3) := by
  simp [rmemDirect, State.cell]

theorem execWmem_eq (a b : Operand) :
    execWmem a b s =
      let s2 := s.log (encodingEvent (s.pc + 1) a ++ encodingEvent (s.pc + 2) b)
      if (operandValue s a).toNat < memWords then
        .next ((s2.store (operandValue s a).toNat (operandValue s b)).advance 3)
      else .next (s2.raise (.addressOutOfRange (operandValue s a))) := by
  simp only [execWmem, State.value_eq, State.memWrite, operandValue_log, State.log_pc, State.log_log]
  split <;> simp_all

/-! ### The stack and the ports -/

theorem execPush_eq (a : Operand) :
    execPush a s =
      let s1 := s.log (encodingEvent (s.pc + 1) a)
      if s.cfg.stackCapacity = some s.stack.length then .next (s1.raise .stackOverflow)
      else .next { s1 with stack := s.stack ++ [operandValue s a], pc := s.pc + 2 } := by
  have hp := fun v => (s.log (encodingEvent (s.pc + 1) a)).push_of_room v
  have hf := fun v => (s.log (encodingEvent (s.pc + 1) a)).push_of_full v
  by_cases h : s.cfg.stackCapacity = some s.stack.length
  · simp only [execPush, State.value_eq, hf _ h, if_pos h]
  · simp only [execPush, State.value_eq, hp _ h, if_neg h]
    rfl

theorem execCall_eq (a : Operand) :
    execCall a s =
      let s1 := s.log (encodingEvent (s.pc + 1) a)
      if s.cfg.stackCapacity = some s.stack.length then .next (s1.raise .stackOverflow)
      else .next { s1 with stack := s.stack ++ [s.pc + 2], pc := operandValue s a } := by
  have hp := fun v => (s.log (encodingEvent (s.pc + 1) a)).push_of_room v
  have hf := fun v => (s.log (encodingEvent (s.pc + 1) a)).push_of_full v
  by_cases h : s.cfg.stackCapacity = some s.stack.length
  · simp only [execCall, State.value_eq, hf _ h, if_pos h]
  · simp only [execCall, State.value_eq, hp _ h, if_neg h, State.log_pc]
    rfl

theorem execPop_of_empty (a : Operand) (h : s.stack = []) :
    execPop a s = .next (s.raise .stackUnderflow) := by
  simp [execPop, s.pop_of_empty h]

theorem execPop_of_concat (a : Operand) (below : List Word) (v : Word) (h : s.stack = below ++ [v]) :
    execPop a s = .next ((State.writeDest 1 a v { s with stack := below }).advance 2) := by
  simp [execPop, s.pop_of_concat below v h]

theorem execRet_of_empty (h : s.stack = []) : execRet s = .next (s.halt .returnUnderflow) := by
  simp [execRet, s.pop_of_empty h]

theorem execRet_of_concat (below : List Word) (v : Word) (h : s.stack = below ++ [v]) :
    execRet s = .next { s with stack := below, pc := v } := by
  simp [execRet, s.pop_of_concat below v h, State.setPc]

theorem execOut_eq (a : Operand) :
    execOut a s = .next { s with
      outChar := s.outChar ++ [operandValue s a], pc := s.pc + 2,
      diag := s.diag ++ encodingEvent (s.pc + 1) a } := by
  simp [execOut, State.value_eq, State.advance, State.setPc, State.writeChar, State.log]

theorem execInp_of_cons (a : Operand) (c : Word) (cs : List Word) (h : s.inbuf = c :: cs) :
    execInp a s = .next ((State.writeDest 1 a c { s with inbuf := cs }).advance 2) := by
  simp [execInp, State.readChar, h]

theorem execInp_of_line (a : Operand) (l : Line) (ls : List Line) (h : s.inbuf = [])
    (hl : s.inLine = l :: ls) :
    execInp a s = .next ((State.writeDest 1 a l.first
      { s with inbuf := l.rest, inLine := ls }).advance 2) := by
  simp [execInp, State.readChar, h, hl]

theorem execInp_of_nothing (a : Operand) (h : s.inbuf = []) (hl : s.inLine = []) :
    execInp a s = .fault .waitingForLine := by
  simp [execInp, State.readChar, h, hl]

/-! ### Control transfer -/

theorem execJmp_eq (a : Operand) :
    execJmp a s = .next ((s.log (encodingEvent (s.pc + 1) a)).setPc (operandValue s a)) := by
  simp [execJmp, State.value_eq]

theorem execJt_eq (a b : Operand) :
    execJt a b s = .next ((s.log (encodingEvent (s.pc + 1) a ++ encodingEvent (s.pc + 2) b)).setPc
      (if operandValue s a ≠ 0 then operandValue s b else s.pc + 3)) := by
  simp only [execJt, State.value_eq, isTrue, State.advance, operandValue_log, State.log_log, State.log_pc]
  split <;> simp_all

theorem execJf_eq (a b : Operand) :
    execJf a b s = .next ((s.log (encodingEvent (s.pc + 1) a ++ encodingEvent (s.pc + 2) b)).setPc
      (if operandValue s a = 0 then operandValue s b else s.pc + 3)) := by
  simp only [execJf, State.value_eq, isTrue, State.advance, operandValue_log, State.log_log, State.log_pc]
  split <;> simp_all

/-! ### The step -/

theorem step_of_instr (h : s.status = .running) (i : Instr) (hf : s.fetch = .instr i) :
    step s = exec i s := by
  simp [step, h, hf]

theorem step_of_unknownOpcode (h : s.status = .running) (op : Word) (hf : s.fetch = .unknownOpcode op) :
    step s = .next ((s.log [.unknownOpcode s.pc op]).halt (.unknownOpcode op)) := by
  simp [step, h, hf, execUnknownOpcode]

theorem step_of_outOfRange (h : s.status = .running) (a : Word) (hf : s.fetch = .outOfRange a) :
    step s = .next (s.raise (.addressOutOfRange a)) := by
  simp [step, h, hf, execFetchFault]

theorem step_of_stopped (h : s.status ≠ .running) : step s = .fault (.notRunning s.status) := by
  unfold step
  split <;> simp_all

/-- Everything a step can be: the machine runs, and the step is what it fetched. -/
theorem step_cases (t : State) (h : step s = .next t) :
    s.status = .running ∧
      ((∃ i, s.fetch = .instr i ∧ exec i s = .next t) ∨
       (∃ op, s.fetch = .unknownOpcode op ∧
          t = (s.log [.unknownOpcode s.pc op]).halt (.unknownOpcode op)) ∨
       (∃ a, s.fetch = .outOfRange a ∧ t = s.raise (.addressOutOfRange a))) := by
  by_cases hr : s.status = .running
  · refine ⟨hr, ?_⟩
    cases hf : s.fetch with
    | instr i =>
      rw [step_of_instr s hr i hf] at h
      exact .inl ⟨i, rfl, h⟩
    | unknownOpcode op =>
      rw [step_of_unknownOpcode s hr op hf] at h
      exact .inr (.inl ⟨op, rfl, by cases h; rfl⟩)
    | outOfRange a =>
      rw [step_of_outOfRange s hr a hf] at h
      exact .inr (.inr ⟨a, rfl, by cases h; rfl⟩)
  · rw [step_of_stopped s hr] at h
    cases h

end Sys2Proof.Machine
end

