-- ==== Sys2Proof/Laws/Boot.lean ====
section
/-! SUPPORT. The image load: its words, and the two states a boot can leave. -/

namespace Sys2Proof.Machine

/-- An image of m bytes has floor(m / 2) words (R202). -/
theorem length_wordsOfBytes : ∀ b : List Byte, (wordsOfBytes b).length = b.length / 2
  | [] => rfl
  | [_] => by simp [wordsOfBytes]
  | _ :: _ :: rest => by
    simp only [wordsOfBytes, List.length_cons, length_wordsOfBytes rest]
    omega

/-- Word n is byte 2n, the low one, and byte 2n + 1 (R55, R202). -/
theorem getElem?_wordsOfBytes : ∀ (b : List Byte) (n : Nat) (lo hi : Byte),
    b[2 * n]? = some lo → b[2 * n + 1]? = some hi →
      (wordsOfBytes b)[n]? = some (BitVec.ofNat 16 (lo.toNat + 256 * hi.toNat))
  | [], _, _, _, h, _ => by simp at h
  | [_], _, _, _, _, h' => by simp at h'
  | _ :: _ :: _, 0, _, _, h, h' => by
    simp only [Nat.mul_zero, Nat.zero_add, List.getElem?_cons_zero, Option.some.injEq,
      List.getElem?_cons_succ] at h h'
    simp [wordsOfBytes, h, h']
  | _ :: _ :: rest, n + 1, lo, hi, h, h' => by
    simpa [wordsOfBytes] using getElem?_wordsOfBytes rest n lo hi
      (by simpa [Nat.mul_add] using h) (by simpa [Nat.mul_add] using h')

theorem boot_of_fits (cfg : Config) (image : List Byte) (h : image.length / 2 ≤ 32768) :
    State.boot cfg image =
      { State.reset with cfg := cfg, mem := Memory.ofWords 0 (wordsOfBytes image) } := by
  rw [State.boot, if_neg (by rw [length_wordsOfBytes]; exact Nat.not_lt.2 h)]

theorem boot_of_tooLarge (cfg : Config) (image : List Byte) (h : 32768 < image.length / 2) :
    State.boot cfg image =
      { State.reset with
        cfg := cfg, mem := memoryAfterImageTooLarge image, status := .faulted .imageTooLarge } := by
  rw [State.boot, if_pos (by rw [length_wordsOfBytes]; exact h)]

/-- The free memory after a too large image is a memory like any other. -/
theorem wf_memoryAfterImageTooLarge (image : List Byte) :
    (memoryAfterImageTooLarge image).wf = true := by
  have h : ∀ n, n ≤ memWords → (Memory.ofWords 0 ((List.range n).map
      (Config.memoryAfterImageTooLarge image))).wf = true := fun n hn =>
    Memory.wf_ofWords _ 0 (by rwa [List.length_map, List.length_range, Nat.zero_add])
  unfold memoryAfterImageTooLarge
  exact h memWords (Nat.le_refl _)

/-! ### What every boot leaves, whatever the image -/

variable (cfg : Config) (image : List Byte)

@[simp] theorem boot_regs : (State.boot cfg image).regs = Vector.replicate 8 0 := by
  unfold State.boot
  split <;> rfl

@[simp] theorem boot_pc : (State.boot cfg image).pc = 0 := by
  unfold State.boot
  split <;> rfl

@[simp] theorem boot_stack : (State.boot cfg image).stack = [] := by
  unfold State.boot
  split <;> rfl

@[simp] theorem boot_inbuf : (State.boot cfg image).inbuf = [] := by
  unfold State.boot
  split <;> rfl

@[simp] theorem boot_inLine : (State.boot cfg image).inLine = [] := by
  unfold State.boot
  split <;> rfl

@[simp] theorem boot_outChar : (State.boot cfg image).outChar = [] := by
  unfold State.boot
  split <;> rfl

@[simp] theorem boot_diag : (State.boot cfg image).diag = [] := by
  unfold State.boot
  split <;> rfl

@[simp] theorem boot_cfg : (State.boot cfg image).cfg = cfg := by
  unfold State.boot
  split <;> rfl

@[simp] theorem boot_reg (k : Fin 8) : (State.boot cfg image).reg k = 0 := by
  rw [State.reg, boot_regs]
  revert k
  decide

@[simp] theorem reset_reg (k : Fin 8) : State.reset.reg k = 0 := by
  revert k
  decide

end Sys2Proof.Machine
end

