-- ==== Sys2Proof/Laws/PerInstr.lean ====
section
/-! SUPPORT. A fact of every instruction as syntax, one lemma for each constructor: its words are an
opcode word and as many operand words as the format of that opcode has (rules R70 and R72). -/

/-- The words of an instruction have the length its opcode word fixes. -/
def Sys2Proof.Laws.EncodingShape.Statement (i : Sys2Proof.Instr) : Prop :=
  ∃ (op : Sys2Proof.Word) (ws : List Sys2Proof.Word),
    Sys2Proof.encode i = op :: ws ∧ Sys2Proof.Machine.operandCount op.toNat = some ws.length

theorem Sys2Proof.Laws.EncodingShape.halt :
    Sys2Proof.Laws.EncodingShape.Statement Sys2Proof.Instr.halt :=
  ⟨_, _, rfl, rfl⟩

theorem Sys2Proof.Laws.EncodingShape.set (a b : Sys2Proof.Operand) :
    Sys2Proof.Laws.EncodingShape.Statement (Sys2Proof.Instr.set a b) :=
  ⟨_, _, rfl, rfl⟩

theorem Sys2Proof.Laws.EncodingShape.push (a : Sys2Proof.Operand) :
    Sys2Proof.Laws.EncodingShape.Statement (Sys2Proof.Instr.push a) :=
  ⟨_, _, rfl, rfl⟩

theorem Sys2Proof.Laws.EncodingShape.pop (a : Sys2Proof.Operand) :
    Sys2Proof.Laws.EncodingShape.Statement (Sys2Proof.Instr.pop a) :=
  ⟨_, _, rfl, rfl⟩

theorem Sys2Proof.Laws.EncodingShape.eq (a b c : Sys2Proof.Operand) :
    Sys2Proof.Laws.EncodingShape.Statement (Sys2Proof.Instr.eq a b c) :=
  ⟨_, _, rfl, rfl⟩

theorem Sys2Proof.Laws.EncodingShape.gt (a b c : Sys2Proof.Operand) :
    Sys2Proof.Laws.EncodingShape.Statement (Sys2Proof.Instr.gt a b c) :=
  ⟨_, _, rfl, rfl⟩

theorem Sys2Proof.Laws.EncodingShape.jmp (a : Sys2Proof.Operand) :
    Sys2Proof.Laws.EncodingShape.Statement (Sys2Proof.Instr.jmp a) :=
  ⟨_, _, rfl, rfl⟩

theorem Sys2Proof.Laws.EncodingShape.jt (a b : Sys2Proof.Operand) :
    Sys2Proof.Laws.EncodingShape.Statement (Sys2Proof.Instr.jt a b) :=
  ⟨_, _, rfl, rfl⟩

theorem Sys2Proof.Laws.EncodingShape.jf (a b : Sys2Proof.Operand) :
    Sys2Proof.Laws.EncodingShape.Statement (Sys2Proof.Instr.jf a b) :=
  ⟨_, _, rfl, rfl⟩

theorem Sys2Proof.Laws.EncodingShape.add (a b c : Sys2Proof.Operand) :
    Sys2Proof.Laws.EncodingShape.Statement (Sys2Proof.Instr.add a b c) :=
  ⟨_, _, rfl, rfl⟩

theorem Sys2Proof.Laws.EncodingShape.mult (a b c : Sys2Proof.Operand) :
    Sys2Proof.Laws.EncodingShape.Statement (Sys2Proof.Instr.mult a b c) :=
  ⟨_, _, rfl, rfl⟩

theorem Sys2Proof.Laws.EncodingShape.mod (a b c : Sys2Proof.Operand) :
    Sys2Proof.Laws.EncodingShape.Statement (Sys2Proof.Instr.mod a b c) :=
  ⟨_, _, rfl, rfl⟩

theorem Sys2Proof.Laws.EncodingShape.and (a b c : Sys2Proof.Operand) :
    Sys2Proof.Laws.EncodingShape.Statement (Sys2Proof.Instr.and a b c) :=
  ⟨_, _, rfl, rfl⟩

theorem Sys2Proof.Laws.EncodingShape.or (a b c : Sys2Proof.Operand) :
    Sys2Proof.Laws.EncodingShape.Statement (Sys2Proof.Instr.or a b c) :=
  ⟨_, _, rfl, rfl⟩

theorem Sys2Proof.Laws.EncodingShape.not (a b : Sys2Proof.Operand) :
    Sys2Proof.Laws.EncodingShape.Statement (Sys2Proof.Instr.not a b) :=
  ⟨_, _, rfl, rfl⟩

theorem Sys2Proof.Laws.EncodingShape.rmem (a b : Sys2Proof.Operand) :
    Sys2Proof.Laws.EncodingShape.Statement (Sys2Proof.Instr.rmem a b) :=
  ⟨_, _, rfl, rfl⟩

theorem Sys2Proof.Laws.EncodingShape.wmem (a b : Sys2Proof.Operand) :
    Sys2Proof.Laws.EncodingShape.Statement (Sys2Proof.Instr.wmem a b) :=
  ⟨_, _, rfl, rfl⟩

theorem Sys2Proof.Laws.EncodingShape.call (a : Sys2Proof.Operand) :
    Sys2Proof.Laws.EncodingShape.Statement (Sys2Proof.Instr.call a) :=
  ⟨_, _, rfl, rfl⟩

theorem Sys2Proof.Laws.EncodingShape.ret :
    Sys2Proof.Laws.EncodingShape.Statement Sys2Proof.Instr.ret :=
  ⟨_, _, rfl, rfl⟩

theorem Sys2Proof.Laws.EncodingShape.out (a : Sys2Proof.Operand) :
    Sys2Proof.Laws.EncodingShape.Statement (Sys2Proof.Instr.out a) :=
  ⟨_, _, rfl, rfl⟩

theorem Sys2Proof.Laws.EncodingShape.inp (a : Sys2Proof.Operand) :
    Sys2Proof.Laws.EncodingShape.Statement (Sys2Proof.Instr.inp a) :=
  ⟨_, _, rfl, rfl⟩

theorem Sys2Proof.Laws.EncodingShape.noop :
    Sys2Proof.Laws.EncodingShape.Statement Sys2Proof.Instr.noop :=
  ⟨_, _, rfl, rfl⟩
end

