-- ==== Sys2Proof/Tests/Slice0.lean ====
section
/-! SUPPORT. The model's own tests.  Expected results are the spec's: the vectors V<n> and L<n> of
95_test_vectors.md, the examples of the instruction rules, and the numbers of R84.  At the end, for every
statement with hypotheses, a state and operands that meet them all. -/

namespace Sys2Proof.Tests

open Sys2Proof Sys2Proof.Machine

/-! ### WellFormed refuses an ill-formed term -/

theorem test_wf_refuses_a_literal_called_invalid : Operand.wf (.invalid 32767) = false := by decide
theorem test_wf_refuses_a_register_called_invalid : Operand.wf (.invalid 32775) = false := by decide
theorem test_wf_takes_the_first_invalid_word : Operand.wf (.invalid 32776) = true := by decide
theorem test_wf_refuses_in_any_operand :
    Instr.wf (.add (.invalid 7) (.literal 1) (.literal 2)) = false ∧
    Instr.wf (.add (.literal 1) (.invalid 7) (.literal 2)) = false ∧
    Instr.wf (.add (.literal 1) (.literal 2) (.invalid 7)) = false := by decide

/-! ### Every opcode decodes from the words the spec gives it -/

theorem test_decode_halt : decode [0] = .ok (.halt, []) := rfl
theorem test_decode_set : decode [1, 32768, 5] = .ok (.set (.register 0) (.literal 5), []) := rfl
theorem test_decode_push : decode [2, 7, 3] = .ok (.push (.literal 7), [3]) := rfl
theorem test_decode_pop : decode [3, 32770] = .ok (.pop (.register 2), []) := rfl
theorem test_decode_eq : decode [4, 32769, 32768, 68] =
    .ok (.eq (.register 1) (.register 0) (.literal 68), []) := rfl
theorem test_decode_gt : decode [5, 32774, 32768, 32769] =
    .ok (.gt (.register 6) (.register 0) (.register 1), []) := rfl
theorem test_decode_jmp : decode [6, 40000] = .ok (.jmp (.invalid 40000), []) := rfl
theorem test_decode_jt : decode [7, 1, 9] = .ok (.jt (.literal 1) (.literal 9), []) := rfl
theorem test_decode_jf : decode [8, 32769, 3] = .ok (.jf (.register 1) (.literal 3), []) := rfl
theorem test_decode_add : decode [9, 32768, 4, 32769] =
    .ok (.add (.register 0) (.literal 4) (.register 1), []) := rfl
theorem test_decode_mult : decode [10, 32768, 182, 359] =
    .ok (.mult (.register 0) (.literal 182) (.literal 359), []) := rfl
theorem test_decode_mod : decode [11, 32770, 32769, 10] =
    .ok (.mod (.register 2) (.register 1) (.literal 10), []) := rfl
theorem test_decode_and : decode [12, 32771, 32768, 255] =
    .ok (.and (.register 3) (.register 0) (.literal 255), []) := rfl
theorem test_decode_or : decode [13, 32772, 32771, 256] =
    .ok (.or (.register 4) (.register 3) (.literal 256), []) := rfl
theorem test_decode_not : decode [14, 32773, 32772] = .ok (.not (.register 5) (.register 4), []) := rfl
theorem test_decode_rmem : decode [15, 31, 30] = .ok (.rmem (.literal 31) (.literal 30), []) := rfl
theorem test_decode_wmem : decode [16, 30, 32769] = .ok (.wmem (.literal 30) (.register 1), []) := rfl
theorem test_decode_call : decode [17, 5, 19] = .ok (.call (.literal 5), [19]) := rfl
theorem test_decode_ret : decode [18, 2] = .ok (.ret, [2]) := rfl
theorem test_decode_out : decode [19, 32775] = .ok (.out (.register 7), []) := rfl
theorem test_decode_in : decode [20, 32768] = .ok (.inp (.register 0), []) := rfl
theorem test_decode_noop : decode [21, 0] = .ok (.noop, [0]) := rfl
theorem test_decode_refuses_22 : decode [22, 0] = .error (.unknownOpcode 22) := rfl
theorem test_decode_refuses_a_register_word : decode [32768] = .error (.unknownOpcode 32768) := rfl
theorem test_decode_names_the_missing_word : decode [1, 32768] = .error (.missingWord 2) := rfl

/-! ### One step at a time -/

/-- The words at `pc`, in a state made from the reset state. -/
def before (ws : List Word) (f : State → State := id) : State :=
  let s := f State.reset
  s.placeWords s.pc.toNat ws

/-- One reading of the state after one step. -/
def after {α : Type} (s : State) (f : State → α) : Option α :=
  match step s with
  | .next t => some (f t)
  | .fault _ => none
  | .refused _ => none

/-- What a vector without a destination lists. -/
def flow (t : State) : Status × Word × List Word × List DiagEvent := (t.status, t.pc, t.stack, t.diag)

theorem test_V3_unknown_opcode : after (before [22]) flow =
    some (.halted (.unknownOpcode 22), 0, [], [.unknownOpcode 0 22]) := by decide
theorem test_V6_fetch_above_top : after (before [] (State.setPc 32768)) flow =
    some (.faulted (.addressOutOfRange 32768), 32768, [], []) := by decide
theorem test_V8_operand_above_top : after (before [1, 32768] (State.setPc 32766)) flow =
    some (.faulted (.addressOutOfRange 32768), 32766, [], []) := by decide
theorem test_V110_in_above_top : after (before [20] (State.setPc 32767)) flow =
    some (.faulted (.addressOutOfRange 32768), 32767, [], []) := by decide

theorem test_V9_halt : after (before [0] (State.setPc 32767)) flow =
    some (.halted .haltInstruction, 32767, [], []) := by decide
theorem test_V7_noop : after (before [21] (State.setPc 32767)) flow =
    some (.running, 32768, [], []) := by decide

theorem test_V12_set_invalid_value : after (before [1, 32768, 40000]) (fun t => (flow t, t.reg 0)) =
    some ((.running, 3, [], [.invalidEncoding 2 40000]), 50000) := by decide
theorem test_V14_set_memory : after (before [1, 100, 5]) (fun t => (flow t, t.memAt 100)) =
    some ((.running, 3, [], []), 5) := by decide
theorem test_V21_rmem_above_top : after (before [15, 32768, 40000]) flow =
    some (.faulted (.addressOutOfRange 50000), 0, [], [.invalidEncoding 2 40000]) := by decide
theorem test_V23_rmem_own_address :
    after (before [15, 32769, 32769] fun s => (s.setReg 1 500).store 500 1234) (fun t => t.reg 1) =
      some 1234 := by decide
theorem test_V22_rmem_direct :
    after (before [15, 32768, 32769] fun s =>
      { (s.setReg 1 500).store 500 1234 with cfg := { stackCapacity := none, rmemMode := .direct } })
      (fun t => (t.reg 0, t.pc)) = some (500, 3) := by decide
theorem test_V26_wmem_is_no_register_write :
    after (before [16, 32769, 9] (State.setReg 1 32768)) (fun t => (flow t, t.reg 0)) =
      some ((.faulted (.addressOutOfRange 32768), 0, [], []), 0) := by decide
theorem test_V29_wmem_own_opcode : after (before [16, 0, 21]) (fun t => (flow t, t.memAt 0)) =
    some ((.running, 3, [], []), 21) := by decide

theorem test_V32_push_invalid : after (before [2, 40000]) flow =
    some (.running, 2, [50000], [.invalidEncoding 1 40000]) := by decide
theorem test_V33_push_full :
    after (before [2, 7] fun s =>
      { s with stack := [1, 2], cfg := { stackCapacity := some 2, rmemMode := .indirect } }) flow =
      some (.faulted .stackOverflow, 0, [1, 2], []) := by decide
theorem test_V34_pop : after (before [3, 32768] fun s => { s with stack := [5, 7] })
    (fun t => (flow t, t.reg 0)) = some ((.running, 2, [5], []), 7) := by decide
theorem test_V36_pop_invalid : after (before [3, 40000] fun s => { s with stack := [5] }) flow =
    some (.running, 2, [], [.invalidWrite 1 40000]) := by decide

theorem test_V41_eq_invalid : after (before [4, 32768, 40000, 50000]) (fun t => (flow t, t.reg 0)) =
    some ((.running, 4, [], [.invalidEncoding 2 40000, .invalidEncoding 3 50000]), 1) := by decide
theorem test_V43_eq_own : after (before [4, 32768, 32768, 32768] (State.setReg 0 7)) (fun t => t.reg 0) =
    some 1 := by decide
theorem test_V45_gt_equal : after (before [5, 32768, 5, 5] (State.setReg 0 9)) (fun t => t.reg 0) =
    some 0 := by decide
theorem test_V48_gt_unsigned :
    after (before [5, 32768, 32769, 32770] fun s => (s.setReg 1 65535).setReg 2 32767)
      (fun t => t.reg 0) = some 1 := by decide
theorem test_V52_add_wraps : after (before [9, 32768, 32769, 32769] (State.setReg 1 65535))
    (fun t => t.reg 0) = some 32766 := by decide
theorem test_V77_add_invalid_destination : after (before [9, 40000, 1, 2]) flow =
    some (.running, 4, [], [.invalidWrite 1 40000]) := by decide
theorem test_V54_mult : after (before [10, 32768, 182, 359]) (fun t => t.reg 0) = some 32570 := by decide
theorem test_V55_mult_wraps : after (before [10, 32768, 32769, 32769] (State.setReg 1 65535))
    (fun t => t.reg 0) = some 1 := by decide
theorem test_V62_mod_zero : after (before [11, 32768, 5, 0] (State.setReg 0 9))
    (fun t => (flow t, t.reg 0)) = some ((.faulted .divideByZero, 0, [], []), 9) := by decide
theorem test_V63_mod : after (before [11, 32768, 40000, 7]) (fun t => t.reg 0) = some 6 := by decide
theorem test_V67_and : after (before [12, 32768, 40000, 32767]) (fun t => t.reg 0) = some 17232 := by decide
theorem test_V70_or_above_15_bits : after (before [13, 32768, 40000, 1]) (fun t => t.reg 0) =
    some 50001 := by decide
theorem test_V72_not : after (before [14, 32768, 0]) (fun t => t.reg 0) = some 32767 := by decide
theorem test_V76_not_invalid : after (before [14, 32768, 40000]) (fun t => t.reg 0) =
    some 15535 := by decide

theorem test_V80_jmp_register : after (before [6, 32768] (State.setReg 0 1000)) flow =
    some (.running, 1000, [], []) := by decide
theorem test_V81_jmp_invalid : after (before [6, 40000]) flow =
    some (.running, 50000, [], [.invalidEncoding 1 40000]) := by decide
theorem test_V85_jt_invalid_is_nonzero : after (before [7, 40000, 9]) flow =
    some (.running, 9, [], [.invalidEncoding 1 40000]) := by decide
theorem test_V86_jt_not_taken : after (before [7, 0, 40000]) flow =
    some (.running, 3, [], [.invalidEncoding 2 40000]) := by decide
theorem test_V90_jf_not_taken : after (before [8, 40000, 9]) flow =
    some (.running, 3, [], [.invalidEncoding 1 40000]) := by decide
theorem test_V91_jf_taken : after (before [8, 32768, 32769] (State.setReg 1 777)) flow =
    some (.running, 777, [], []) := by decide
theorem test_V93_call : after (before [17, 32768] fun s =>
    { (s.setReg 0 7).setPc 100 with stack := [3] }) flow = some (.running, 7, [3, 102], []) := by decide
theorem test_V94_call_at_top : after (before [17, 5] (State.setPc 32766)) flow =
    some (.running, 5, [32768], []) := by decide
theorem test_V97_ret : after (before [18] fun s => { s with stack := [4, 2] }) flow =
    some (.running, 2, [4], []) := by decide
theorem test_V98_ret_empty : after (before [18]) flow =
    some (.halted .returnUnderflow, 0, [], []) := by decide

theorem test_V102_out_invalid : after (before [19, 40000]) (fun t => (t.outChar, t.pc)) =
    some ([50000], 2) := by decide
theorem test_V103_out_register : after (before [19, 32768] (State.setReg 0 65535)) State.outChar =
    some [65535] := by decide
theorem test_V104_in_takes_a_line : after (before [20, 32768] (State.offerLine ⟨97, [98, 10]⟩))
    (fun t => (t.reg 0, t.inbuf, t.inLine)) = some (97, [98, 10], []) := by decide
theorem test_V107_in_invalid : after (before [20, 40000] fun s => { s with inbuf := [98, 10] })
    (fun t => (flow t, t.inbuf)) =
      some ((.running, 2, [], [.invalidWrite 1 40000]), [10]) := by decide
theorem test_V106_in_blocks : step (before [20, 32768]) = .fault .waitingForLine := rfl

/-! ### The image load, and the host's two functions -/

theorem test_L1_load : ((State.boot defaultConfig [9, 0, 0, 128, 4, 0]).mem, State.status
    (State.boot defaultConfig [9, 0, 0, 128, 4, 0])) = ([(0, 9), (1, 32768), (2, 4)], .running) := by decide
theorem test_L2_odd_byte_is_discarded : (State.boot defaultConfig [21, 0, 7]).mem = [(0, 21)] := by decide
theorem test_L7_low_byte_first : (State.boot defaultConfig [0x34, 0x12]).memAt 0 = 4660 := by decide

theorem test_table_word_16_has_zero_operands : decodeTableWord 16 (9 + 32768 * 65536) =
    some (.add (.literal 0) (.literal 0) (.literal 0)) := by decide
theorem test_withFetchWord_runs_at_reset :
    after (State.reset.withFetchWord 48 (1 + 32768 * 2 ^ 16 + 5 * 2 ^ 32)) (fun t => (t.pc, t.reg 0)) =
      some (3, 5) := by decide

/-- The memory's canonical form: a write of 0 leaves no entry. -/
theorem test_writing_zero_unlists : Memory.write (Memory.write [] 7 1) 7 0 = [] := by decide

/-! ### A witness for the hypotheses of each statement, in the order of Obligations.lean -/

/-- A parameter choice with a stack of one entry. -/
def small : Config := { stackCapacity := some 1, rmemMode := .direct }

theorem witness_ClassifyPartitionsWords :
    ((0 : Word).toNat ≤ 32767 ∧ (32767 : Word).toNat ≤ 32767) ∧
    (32768 ≤ (32768 : Word).toNat ∧ (32775 : Word).toNat ≤ 32775) ∧
    (32776 ≤ (32776 : Word).toNat ∧ 32776 ≤ (65535 : Word).toNat) := by decide

theorem witness_DecodeInvertsEncode :
    Instr.wf (.add (.literal 32767) (.register 7) (.invalid 32776)) = true := by decide

theorem witness_EncodeInvertsDecode : decode [1, 32775, 65535, 0] =
    .ok (.set (.register 7) (.invalid 65535), [0]) := rfl

theorem witness_OpcodeAloneChoosesTheFormat :
    operandCount (13 : Word).toNat = some 3 ∧ 3 ≤ [1, 2, 3, 4].length ∧ [1, 2].length < 3 := by decide

theorem witness_OnlyTheTwentyTwoOpcodesDecode :
    21 < (22 : Word).toNat ∧ (21 : Word).toNat ≤ 21 ∧ operandCount (20 : Word).toNat = some 1 ∧
      ([] : List Word).length < 1 := by decide

theorem witness_StepRunsTheInstructionAtPc :
    Instr.wf (.jmp (.literal 5)) = true ∧ (before [6, 5]).status = .running ∧
      (before [6, 5]).holdsInstr (.jmp (.literal 5)) := by
  refine ⟨rfl, rfl, ?_⟩
  unfold State.holdsInstr
  decide

theorem witness_UnknownOpcodeHalts :
    (before [22]).status = .running ∧ (before [22]).pc.toNat ≤ 32767 ∧
      21 < (before [22]).opcode.toNat := by decide

theorem witness_OpcodeFetchAboveTopFaults :
    (before [] (State.setPc 32768)).status = .running ∧
      32767 < (before [] (State.setPc 32768)).pc.toNat := by decide

theorem witness_OperandFetchAboveTopFaults :
    let s := before [1, 0] (State.setPc 32766)
    s.status = .running ∧ s.pc.toNat ≤ 32767 ∧ operandCount s.opcode.toNat = some 2 ∧
      32767 < s.pc.toNat + 2 := by decide

theorem witness_DisabledStepsSayWhy :
    (State.reset.halt .haltInstruction).status ≠ .running ∧ (before [20, 32768]).waits := by
  unfold State.waits
  decide

theorem witness_FaultsArePrecise :
    (∃ t, step (before [15, 32768, 40000]) = .next t ∧
      t.status = .faulted (.addressOutOfRange 50000)) ∧ (before [15, 32768, 40000]).fetchable ∧
    (∃ t, step (before [1, 0] (State.setPc 32766)) = .next t ∧
      t.status = .faulted (.addressOutOfRange 32768)) ∧
      ¬ (before [1, 0] (State.setPc 32766)).fetchable :=
  ⟨⟨_, rfl, by decide⟩, ⟨2, by decide, by decide⟩, ⟨_, rfl, by decide⟩, fun ⟨n, hn, hp⟩ => by
    have : operandCount (before [1, 0] (State.setPc 32766)).opcode.toNat = some 2 := by decide
    cases this.symm.trans hn
    revert hp
    decide⟩

theorem witness_HaltsChangeOnlyTheStatus : ∃ t, step (before [18]) = .next t ∧
    t.status = .halted .returnUnderflow := ⟨_, rfl, by decide⟩

theorem witness_FetchedInstructionLiesInMemory :
    (before [18] (State.setPc 32767)).fetch = .instr .ret := by decide

theorem witness_ResetValues :
    (let image : List Byte := [9, 0, 1, 128]
     image.length / 2 ≤ 32768 ∧ image[2 * 1]? = some 1 ∧ image[2 * 1 + 1]? = some 128 ∧
       image.length / 2 ≤ 2) ∧
    32768 < (List.replicate 65538 (0 : Byte)).length / 2 := by
  refine ⟨by decide, ?_⟩
  rw [List.length_replicate]
  decide

theorem witness_EveryStepKeepsTheInvariant :
    State.Inv (before [20, 32768] (State.offerLine ⟨97, [10]⟩)) ∧ Line.wf ⟨10, []⟩ = true ∧
      ∃ t, step (before [20, 32768] (State.offerLine ⟨97, [10]⟩)) = .next t :=
  ⟨⟨by decide, fun _ h => (nomatch h), by decide, .inl rfl⟩, by decide, _, rfl⟩

theorem witness_RmemIndirectReadsMemory :
    let s := State.reset.setReg 1 32768
    s.cfg.rmemMode = .indirect ∧ (operandValue s (.literal 32767)).toNat ≤ 32767 ∧
      32767 < (operandValue s (.register 1)).toNat := by decide

theorem witness_RmemDirectReadsOperand :
    ({ State.reset with cfg := small } : State).cfg.rmemMode = .direct := rfl

theorem witness_WmemStoresAtItsAddress :
    (operandValue State.reset (.literal 32767)).toNat ≤ 32767 ∧
      32767 < (operandValue (State.reset.setReg 1 32768) (.register 1)).toNat := by decide

theorem witness_StoreIsSeenByTheNextFetch :
    State.reset.status = .running ∧ operandValue State.reset (.literal 3) = State.reset.pc + 3 ∧
      (State.reset.pc + 3).toNat ≤ 32767 ∧ operandValue State.reset (.literal 0) = 0 ∧
      (3 : BitVec 15).toNat = (State.reset.pc + 3).toNat := by decide

theorem witness_StoreIsSeenByTheNextFetch_anyInstruction :
    ∃ t, exec (.add (.literal 4) (.literal 0) (.literal 0)) State.reset = .next t ∧
      t.status = .running ∧ Delivered (.literal 4) 0 State.reset t ∧ t.pc.toNat = (4 : BitVec 15).toNat :=
  have ⟨_, h, hd, hpc, _, _, _, hs, _⟩ := aluBinary_writes State.reset addResult (.literal 4) (.literal 0) (.literal 0)
  ⟨_, h, hs, hd, by rw [hpc]; decide⟩

theorem witness_PushAppendsItsValue :
    ({ State.reset with cfg := small } : State).cfg.stackCapacity ≠ some 0 ∧
      ({ State.reset with cfg := small, stack := [4] } : State).cfg.stackCapacity =
        some [(4 : Word)].length := by decide

theorem witness_PopDeliversTheTop :
    ({ State.reset with stack := [5, 7] } : State).stack = [5] ++ [7] := rfl

theorem witness_PopOfEmptyStackIsFatal : State.reset.stack = [] := rfl

theorem witness_PushThenPopRestores :
    State.reset.cfg.stackCapacity ≠ some State.reset.stack.length := by decide

theorem witness_ModGivesTheRemainder :
    operandValue State.reset (.literal 1) ≠ 0 ∧ operandValue State.reset (.literal 0) = 0 := by decide

theorem witness_AluKeepsFifteenBits :
    let s := State.reset.setReg 3 32767
    (operandValue s (.register 3)).toNat ≤ 32767 ∧ (operandValue s (.literal 0)).toNat ≤ 32767 ∧
      operandValue s (.register 3) ≠ 0 ∧ operandValue s (.literal 0) = 0 := by decide

theorem witness_JmpGoesToItsValue :
    State.reset.status = .running ∧ 32767 < (operandValue State.reset (.invalid 40000)).toNat := by decide

theorem witness_CallPushesTheReturnAddress :
    State.reset.cfg.stackCapacity ≠ some State.reset.stack.length ∧
      ({ State.reset with cfg := small, stack := [4] } : State).cfg.stackCapacity =
        some [(4 : Word)].length := by decide

theorem witness_RetGoesToTheTop :
    ({ State.reset with stack := [40000] } : State).stack = [] ++ [40000] := rfl

theorem witness_RetOnEmptyStackHalts : State.reset.stack = [] := rfl

theorem witness_CallThenRetResumes :
    State.reset.cfg.stackCapacity ≠ some State.reset.stack.length ∧
      ∃ t u : State, exec (.call (.literal 5)) State.reset = .next t ∧ u.stack = t.stack ∧ u ≠ t :=
  ⟨by decide, _, { State.reset with stack := [2] }, rfl, rfl, by decide⟩

theorem witness_InTakesTheFirstBufferedCode :
    ({ State.reset with inbuf := [98, 10] } : State).inbuf = 98 :: [10] := rfl

theorem witness_InTakesOneLineWhenEmpty :
    (State.reset.offerLine ⟨97, [10]⟩).inbuf = [] ∧
      (State.reset.offerLine ⟨97, [10]⟩).inLine = ⟨97, [10]⟩ :: [] := by decide

theorem witness_CodesAreConsumedInTypedOrder :
    ∃ t, step (before [20, 32768] (State.offerLine ⟨97, [10]⟩)) = .next t := ⟨_, rfl⟩

theorem witness_LinesAreTakenOnlyByIn :
    ∃ t, step (before [20, 32768] (State.offerLine ⟨97, [10]⟩)) = .next t ∧
      t.inLine ≠ (before [20, 32768] (State.offerLine ⟨97, [10]⟩)).inLine := ⟨_, rfl, by decide⟩

theorem witness_OnlyOutEmitsOneCode : ∃ t, step (before [19, 65]) = .next t := ⟨_, rfl⟩

theorem witness_InThenOutEchoes :
    (State.reset.offerLine ⟨97, [10]⟩).pendingCodes = 97 :: [10] := by decide

theorem witness_RegistersChangeOnlyAsDestinations :
    ∃ t, step (before [1, 32775, 5]) = .next t ∧ t.reg 7 ≠ (before [1, 32775, 5]).reg 7 :=
  ⟨_, rfl, by decide⟩

theorem witness_MemoryChangesOnlyWhereWritten :
    (∃ t, step (before [16, 9, 5]) = .next t ∧ t.memAt 9 ≠ (before [16, 9, 5]).memAt 9) ∧
      ∃ t, step (before [1, 9, 5]) = .next t ∧ t.memAt 9 ≠ (before [1, 9, 5]).memAt 9 :=
  ⟨⟨_, rfl, by decide⟩, _, rfl, by decide⟩

theorem witness_StackChangesByOneAtItsTop :
    (∃ t, step (before [17, 5]) = .next t ∧ t.stack ≠ (before [17, 5]).stack) ∧
      ∃ t, step (before [18] fun s => { s with stack := [5] }) = .next t ∧
        t.stack ≠ (before [18] fun s => { s with stack := [5] }).stack :=
  ⟨⟨_, rfl, by decide⟩, _, rfl, by decide⟩

end Sys2Proof.Tests
end

section
/-! PROOF. What a fetch finds in memory, what each meaning does to OUT_CHAR, and from the two that only
`out` emits a code (R14, R153). -/

namespace Sys2Proof

/-! ### Decoding and encoding are inverse -/

/-- What decodes is well formed, and its words are the ones it was read from (R71). -/
theorem wf_and_encode_append_of_decode {ws rest : List Word} {i : Instr} (h : decode ws = .ok (i, rest)) :
    i.wf = true ∧ encode i ++ rest = ws := by
  cases ws with
  | nil => simp [decode] at h
  | cons op ws =>
    rcases formatOf_cases op with
      ⟨-, hf⟩ | ⟨j, hf, -, he, hw⟩ | ⟨f, hf, -, he⟩ | ⟨f, hf, -, he⟩ | ⟨f, hf, -, he⟩
    · cases (decode_of_none op ws hf).symm.trans h
    · cases (decode_of_f0 op ws j hf).symm.trans h
      simp [he, hw]
    · rcases ws with _ | ⟨a, ws⟩ <;> simp only [decode, hf] at h <;> cases h
      simp [he]
    · rcases ws with _ | ⟨a, _ | ⟨b, ws⟩⟩ <;> simp only [decode, hf] at h <;> cases h
      simp [he]
    · rcases ws with _ | ⟨a, _ | ⟨b, _ | ⟨c, ws⟩⟩⟩ <;> simp only [decode, hf] at h <;> cases h
      simp [he]

/-- A well-formed instruction is decoded from its own words, whatever follows them (R70, R72): each
constructor by evaluation, its operands being the classes of their words. -/
theorem decode_encode_append {i : Instr} (rest : List Word) (h : i.wf = true) :
    decode (encode i ++ rest) = .ok (i, rest) := by
  cases i <;> simp_all [Instr.wf, encode, decode, formatOf, classify_word]

theorem length_encode_le (i : Instr) : (encode i).length ≤ 4 := by
  cases i <;> simp [encode]

namespace Machine

variable {s t : State} {i : Instr}

/-! ### The fetch -/

/-- Memory holds an instruction from `pc` on exactly if its words begin the window the fetch reads. -/
theorem State.holdsInstr_iff_prefix : s.holdsInstr i ↔ encode i <+: s.window 4 s.pc.toNat := by
  have hlen := length_encode_le i
  rw [List.prefix_iff_getElem]
  constructor
  · intro h
    have hle : (encode i).length ≤ (s.window 4 s.pc.toNat).length := by
      rw [State.length_window]
      by_contra hlt
      have := (h ((encode i).length - 1) (by omega)).1
      simp only [memWords] at hlt
      omega
    exact ⟨hle, fun k hk => by rw [State.getElem_window, (h k hk).2]⟩
  · rintro ⟨hle, hget⟩ k hk
    refine ⟨?_, by rw [hget k hk, State.getElem_window]⟩
    rw [State.length_window] at hle
    simp only [memWords] at hle
    omega

/-- The fetch gives the well-formed instruction that memory holds at `pc`, and no other (R90, R91). -/
theorem State.fetch_eq_instr_iff : s.fetch = .instr i ↔ i.wf = true ∧ s.holdsInstr i := by
  rw [State.holdsInstr_iff_prefix]
  constructor
  · intro h
    unfold State.fetch at h
    split at h
    · next j rest hd =>
      cases h
      obtain ⟨hw, he⟩ := wf_and_encode_append_of_decode hd
      exact ⟨hw, rest, he⟩
    all_goals cases h
  · rintro ⟨hw, rest, he⟩
    rw [State.fetch, ← he, decode_encode_append rest hw]

/-- An `out` is fetched exactly from opcode 19 with its operand word in memory. -/
theorem State.fetch_eq_out_iff (a : Operand) :
    s.fetch = .instr (.out a) ↔
      (s.opcode = 19 ∧ s.pc.toNat + 1 ≤ 32767) ∧ s.operandAt 1 = a := by
  rw [State.fetch_eq_instr_iff]
  constructor
  · rintro ⟨hw, h⟩
    obtain ⟨-, hop⟩ := h 0 Nat.two_pos
    obtain ⟨hpc, ha⟩ := h 1 Nat.one_lt_two
    refine ⟨⟨hop, hpc⟩, ?_⟩
    rw [State.operandAt, ha]
    exact classify_word a hw
  · rintro ⟨⟨hop, hpc⟩, rfl⟩
    refine ⟨classify_wf _, fun k hk => ?_⟩
    have hk : k < 2 := hk
    interval_cases k
    · exact ⟨by omega, hop⟩
    · exact ⟨hpc, (word_classify _).symm⟩

/-! ### OUT_CHAR -/

theorem aluBinary_keeps_outChar {f : Word → Word → Word} {a b c : Operand}
    (h : aluBinary f a b c s = .next t) : t.outChar = s.outChar := by
  rw [aluBinary_eq] at h
  cases h
  simp

theorem execRmem_keeps_outChar {a b : Operand} (h : execRmem a b s = .next t) :
    t.outChar = s.outChar := by
  unfold execRmem at h
  split at h
  · rw [rmemIndirect_eq] at h
    split at h <;> cases h <;> simp
  · rw [rmemDirect_eq] at h
    cases h
    simp

theorem execInp_keeps_outChar {a : Operand} (h : execInp a s = .next t) : t.outChar = s.outChar := by
  cases hb : s.inbuf with
  | cons c cs =>
    rw [execInp_of_cons s a c cs hb] at h
    cases h
    simp
  | nil =>
    cases hl : s.inLine with
    | nil =>
      rw [execInp_of_nothing s a hb hl] at h
      cases h
    | cons l ls =>
      rw [execInp_of_line s a l ls hb hl] at h
      cases h
      simp

theorem execPop_keeps_outChar {a : Operand} (h : execPop a s = .next t) : t.outChar = s.outChar := by
  rcases List.eq_nil_or_concat' s.stack with hs | ⟨below, v, hs⟩
  · rw [execPop_of_empty s a hs] at h
    cases h
    rfl
  · rw [execPop_of_concat s a below v hs] at h
    cases h
    simp

theorem execRet_keeps_outChar (h : execRet s = .next t) : t.outChar = s.outChar := by
  rcases List.eq_nil_or_concat' s.stack with hs | ⟨below, v, hs⟩
  · rw [execRet_of_empty s hs] at h
    cases h
    rfl
  · rw [execRet_of_concat s below v hs] at h
    cases h
    rfl

/-- No instruction but `out` emits a code (R153). -/
theorem exec_keeps_outChar (hi : ∀ a, i ≠ .out a) (h : exec i s = .next t) : t.outChar = s.outChar := by
  cases i with
  | out a => exact absurd rfl (hi a)
  | eq | gt | add | mult | and | or => exact aluBinary_keeps_outChar h
  | rmem => exact execRmem_keeps_outChar h
  | inp => exact execInp_keeps_outChar h
  | pop => exact execPop_keeps_outChar h
  | ret => exact execRet_keeps_outChar h
  | halt | noop =>
    cases h
    rfl
  | set | not | jmp | jt | jf =>
    simp only [exec, execSet_eq, execNot_eq, execJmp_eq, execJt_eq, execJf_eq] at h
    cases h
    simp
  | mod | wmem | push | call =>
    simp only [exec, execMod_eq, execWmem_eq, execPush_eq, execCall_eq] at h
    split at h <;> cases h <;> simp

/-- Settles O54: the condition says exactly that an `out` is fetched, `out` emits its operand's value, and
no other instruction and no stop before one emits anything. -/
theorem onlyOutEmitsOneCode : Obligations.OnlyOutEmitsOneCode := by
  unfold Obligations.OnlyOutEmitsOneCode
  intro s t h
  obtain ⟨hrun, hcases⟩ := step_cases s t h
  by_cases hout : s.opcode = 19 ∧ s.pc.toNat + 1 ≤ 32767
  · have hf : s.fetch = .instr (.out (s.operandAt 1)) := (State.fetch_eq_out_iff _).2 ⟨hout, rfl⟩
    rw [step_of_instr s hrun _ hf, exec, execOut_eq] at h
    cases h
    rw [if_pos hout]
  · rw [if_neg hout, List.append_nil]
    rcases hcases with ⟨i, hf, he⟩ | ⟨op, -, rfl⟩ | ⟨a, -, rfl⟩
    · exact exec_keeps_outChar (fun a hi => hout ((State.fetch_eq_out_iff a).1 (hi ▸ hf)).1) he
    · rfl
    · rfl

end Machine

end Sys2Proof
end

section
/-! PROOF. What an instruction does to memory, the registers, the stack and the input, said once; from
it, what every step keeps of the state (10_state.md). -/

namespace Sys2Proof

/-- The destination operand of an instruction, for the twelve opcodes that have one (R32, R74). -/
def Instr.dest : Instr → Option Operand
  | .set a _ | .pop a | .not a _ | .rmem a _ | .inp a => some a
  | .eq a _ _ | .gt a _ _ | .add a _ _ | .mult a _ _ | .mod a _ _ | .and a _ _ | .or a _ _ => some a
  | .halt | .push _ | .jmp _ | .jt _ _ | .jf _ _ | .wmem _ _ | .call _ | .ret | .out _ | .noop => none

/-- The destination is operand word 1 of one of the twelve opcodes of R32. -/
theorem Instr.encode_of_dest {i : Instr} {a : Operand} (h : i.dest = some a) :
    ∃ op ws, encode i = op :: a.word :: ws ∧
      op.toNat ∈ [1, 3, 4, 5, 9, 10, 11, 12, 13, 14, 15, 20] ∧ (i.wf = true → a.wf = true) := by
  cases i with
  | halt | push | jmp | jt | jf | wmem | call | ret | out | noop => cases h
  | set | pop | eq | gt | add | mult | mod | and | or | not | rmem | inp =>
    cases h
    exact ⟨_, _, rfl, by decide, by simp +contextual [Instr.wf]⟩

theorem encode_ne_nil (i : Instr) : encode i ≠ [] := by
  cases i <;> simp [encode]

/-- What is left of the end of a line after its first code is nothing or the end of a line (R13). -/
theorem tail_endsInItsOnlyNewline {c : Word} {cs : List Word}
    (h : endsInItsOnlyNewline (c :: cs) = true) : cs = [] ∨ endsInItsOnlyNewline cs = true := by
  cases cs with
  | nil => exact .inl rfl
  | cons d ds =>
    simp only [endsInItsOnlyNewline, Bool.and_eq_true] at h
    exact .inr h.2

namespace Machine

variable {s t u : State} {i : Instr}

/-! ### The words of a fetched instruction -/

/-- Settles O16: memory holds the last word of a fetched instruction at an address 0..32767. -/
theorem fetchedInstructionLiesInMemory : Obligations.FetchedInstructionLiesInMemory := by
  unfold Obligations.FetchedInstructionLiesInMemory
  intro s i h
  obtain ⟨-, hholds⟩ := State.fetch_eq_instr_iff.1 h
  have hpos := List.length_pos_iff.2 (encode_ne_nil i)
  have hlast := (hholds ((encode i).length - 1) (by omega)).1
  omega

/-- A fetched instruction's first two words are the opcode word and operand word 1 at `pc`. -/
theorem State.opcode_operandAt_of_fetch {op : Word} {a : Operand} {ws : List Word}
    (hf : s.fetch = .instr i) (he : encode i = op :: a.word :: ws) (ha : a.wf = true) :
    s.opcode = op ∧ s.operandAt 1 = a := by
  obtain ⟨-, hholds⟩ := State.fetch_eq_instr_iff.1 hf
  simp only [State.holdsInstr, he] at hholds
  have hop := (hholds 0 (by simp)).2
  have hword := (hholds 1 (by simp)).2
  exact ⟨hop, (congrArg classify hword).trans (classify_word a ha)⟩

theorem State.dest_of_fetch {a : Operand} (hf : s.fetch = .instr i) (hd : i.dest = some a) :
    s.opcode.toNat ∈ [1, 3, 4, 5, 9, 10, 11, 12, 13, 14, 15, 20] ∧ s.operandAt 1 = a := by
  obtain ⟨op, ws, he, hop, hwf⟩ := Instr.encode_of_dest hd
  obtain ⟨rfl, ha⟩ := State.opcode_operandAt_of_fetch hf he (hwf (State.fetch_eq_instr_iff.1 hf).1)
  exact ⟨hop, ha⟩

theorem State.wmem_of_fetch {a b : Operand} (hf : s.fetch = .instr (.wmem a b)) :
    s.opcode = 16 ∧ s.operandAt 1 = a := by
  have hwf := (State.fetch_eq_instr_iff.1 hf).1
  rw [Instr.wf, Bool.and_eq_true] at hwf
  exact State.opcode_operandAt_of_fetch hf rfl hwf.1

/-! ### The data of a state -/

/-- The state with `pc`, the status and the two histories at their reset values: what is left are the
memory, the registers, the stack, the input and the parameters. -/
def State.data (s : State) : State := { s with pc := 0, status := .running, outChar := [], diag := [] }

@[simp] theorem State.data_setPc (p : Word) : (s.setPc p).data = s.data := rfl
@[simp] theorem State.data_advance (n : Word) : (s.advance n).data = s.data := rfl
@[simp] theorem State.data_log (es : List DiagEvent) : (s.log es).data = s.data := rfl
@[simp] theorem State.data_halt (r : HaltReason) : (s.halt r).data = s.data := rfl
@[simp] theorem State.data_raise (k : FaultKind) : (s.raise k).data = s.data := rfl

@[simp] theorem State.data_store_log (es : List DiagEvent) (x : Nat) (v : Word) :
    ((s.log es).store x v).data = (s.store x v).data := rfl

@[simp] theorem State.data_writeDest_log (es : List DiagEvent) (n : Word) (a : Operand) (v : Word) :
    ((s.log es).writeDest n a v).data = (s.writeDest n a v).data := by
  cases a <;> rfl

theorem State.reg_of_data (h : t.data = s.data) (k : Fin 8) : t.reg k = s.reg k :=
  show t.data.reg k = s.data.reg k by rw [h]

theorem State.memAt_of_data (h : t.data = s.data) (x : Nat) : t.memAt x = s.memAt x :=
  show t.data.memAt x = s.data.memAt x by rw [h]

/-! ### What an instruction does to the data -/

/-- What an instruction may take before it writes: nothing, the top of the stack, or a code. -/
inductive Takes (s : State) : State → Prop
  | nothing : Takes s s
  | top {v : Word} {u : State} (h : s.pop = some (v, u)) : Takes s u
  | code {c : Word} {u : State} (h : s.readChar = some (c, u)) : Takes s u

/-- Everything an instruction can do to the data of a state. -/
inductive Effect (s : State) (i : Instr) (t : State) : Prop
  | takes {u : State} (hu : Takes s u) (ht : t.data = u.data)
  | writes {u : State} {a : Operand} {v : Word} (hu : Takes s u) (ha : i.dest = some a)
      (ht : t.data = (u.writeDest 1 a v).data)
  | stores {a b : Operand} {v : Word} (hi : i = .wmem a b) (hx : (operandValue s a).toNat < memWords)
      (ht : t.data = (s.store (operandValue s a).toNat v).data)
  | pushes {v : Word} (hroom : s.cfg.stackCapacity ≠ some s.stack.length)
      (ht : t.data = State.data { s with stack := s.stack ++ [v] })

theorem Effect.keeps (h : t.data = s.data) : Effect s i t := .takes .nothing h

/-- Resolving values, writing the destination and falling through, the shape of every result (R94). -/
theorem Effect.writesResult {a : Operand} (es : List DiagEvent) (v n : Word) (ha : i.dest = some a) :
    Effect s i (((s.log es).writeDest 1 a v).advance n) :=
  .writes (v := v) .nothing ha (by simp)

theorem aluBinary_effect {f : Word → Word → Word} {a b c : Operand} (ha : i.dest = some a)
    (h : aluBinary f a b c s = .next t) : Effect s i t := by
  rw [aluBinary_eq] at h
  cases h
  exact .writesResult _ _ 4 ha

theorem execMod_effect {a b c : Operand} (h : execMod a b c s = .next t) :
    Effect s (.mod a b c) t := by
  rw [execMod_eq] at h
  split at h <;> cases h
  · exact .keeps (by simp)
  · exact .writesResult _ _ 4 rfl

theorem execRmem_effect {a b : Operand} (h : execRmem a b s = .next t) :
    Effect s (.rmem a b) t := by
  unfold execRmem at h
  split at h
  · rw [rmemIndirect_eq] at h
    split at h <;> cases h
    · exact .writesResult _ _ 3 rfl
    · exact .keeps (by simp)
  · rw [rmemDirect_eq] at h
    cases h
    exact .writesResult _ _ 3 rfl

theorem execWmem_effect {a b : Operand} (h : execWmem a b s = .next t) :
    Effect s (.wmem a b) t := by
  rw [execWmem_eq] at h
  split at h <;> cases h
  · next hx => exact .stores (v := operandValue s b) rfl hx (by simp)
  · exact .keeps (by simp)

theorem execPush_effect {a : Operand} (h : execPush a s = .next t) : Effect s (.push a) t := by
  rw [execPush_eq] at h
  split at h <;> cases h
  · exact .keeps (by simp)
  · next hroom => exact .pushes hroom rfl

theorem execCall_effect {a : Operand} (h : execCall a s = .next t) : Effect s (.call a) t := by
  rw [execCall_eq] at h
  split at h <;> cases h
  · exact .keeps (by simp)
  · next hroom => exact .pushes hroom rfl

theorem execPop_effect {a : Operand} (h : execPop a s = .next t) : Effect s (.pop a) t := by
  unfold execPop at h
  split at h <;> cases h
  · exact .keeps (by simp)
  · next hp => exact .writes (.top hp) rfl (State.data_advance 2)

theorem execRet_effect (h : execRet s = .next t) : Effect s .ret t := by
  unfold execRet at h
  split at h <;> cases h
  · exact .keeps (by simp)
  · next hp => exact .takes (.top hp) (by simp)

theorem execInp_effect {a : Operand} (h : execInp a s = .next t) : Effect s (.inp a) t := by
  unfold execInp at h
  split at h <;> cases h
  next hc => exact .writes (.code hc) rfl (State.data_advance 2)

theorem exec_effect (h : exec i s = .next t) : Effect s i t := by
  cases i with
  | eq | gt | add | mult | and | or => exact aluBinary_effect rfl h
  | mod => exact execMod_effect h
  | rmem => exact execRmem_effect h
  | wmem => exact execWmem_effect h
  | push => exact execPush_effect h
  | call => exact execCall_effect h
  | pop => exact execPop_effect h
  | ret => exact execRet_effect h
  | inp => exact execInp_effect h
  | set | not =>
    simp only [exec, execSet_eq, execNot_eq] at h
    cases h
    exact .writesResult _ _ 3 rfl
  | halt | noop | out | jmp | jt | jf =>
    simp only [exec, execHalt, execNoop, execOut_eq, execJmp_eq, execJt_eq, execJf_eq] at h
    cases h
    exact .keeps rfl

/-- A step keeps the data, or has the effect of the instruction it fetched. -/
theorem step_effect (h : step s = .next t) :
    t.data = s.data ∨ ∃ i, s.fetch = .instr i ∧ Effect s i t := by
  obtain ⟨-, ⟨i, hf, he⟩ | ⟨op, -, rfl⟩ | ⟨a, -, rfl⟩⟩ := step_cases s t h
  · exact .inr ⟨i, hf, exec_effect he⟩
  · exact .inl (by simp)
  · exact .inl (by simp)

/-! ### The invariant -/

theorem State.inv_data_iff : s.data.Inv ↔ s.Inv :=
  ⟨fun ⟨hm, hs, hl, hb⟩ => ⟨hm, hs, hl, hb⟩, fun ⟨hm, hs, hl, hb⟩ => ⟨hm, hs, hl, hb⟩⟩

theorem State.Inv.of_data (hs : s.Inv) (h : t.data = s.data) : t.Inv :=
  State.inv_data_iff.1 (h ▸ State.inv_data_iff.2 hs)

theorem State.Inv.pop {v : Word} (hs : s.Inv) (h : s.pop = some (v, u)) : u.Inv := by
  obtain ⟨below, hb, rfl⟩ := (s.pop_eq_some u v).1 h
  refine ⟨hs.memory, fun n hn => ?_, hs.lines, hs.buffer⟩
  have := hs.stack n hn
  simp only [hb, List.length_append] at this
  exact Nat.le_of_add_right_le this

theorem State.Inv.readChar {c : Word} (hs : s.Inv) (h : s.readChar = some (c, u)) : u.Inv := by
  obtain ⟨cs, hb, rfl⟩ | ⟨-, l, ls, hl, -, rfl⟩ := (s.readChar_eq_some u c).1 h
  · refine ⟨hs.memory, hs.stack, hs.lines, ?_⟩
    exact tail_endsInItsOnlyNewline (hb ▸ hs.buffer.resolve_left (by simp [hb]))
  · have hlines := hl ▸ hs.lines
    refine ⟨hs.memory, hs.stack, fun m hm => hlines m (List.mem_cons_of_mem _ hm), ?_⟩
    exact tail_endsInItsOnlyNewline (hlines l List.mem_cons_self)

theorem State.Inv.takes (hs : s.Inv) (h : Takes s u) : u.Inv := by
  cases h with
  | nothing => exact hs
  | top h => exact hs.pop h
  | code h => exact hs.readChar h

theorem State.Inv.writeDest (hs : s.Inv) (n : Word) (a : Operand) (v : Word) :
    (s.writeDest n a v).Inv where
  memory := s.writeDest_wf n a v hs.memory
  stack := by simpa using hs.stack
  lines := by simpa using hs.lines
  buffer := by simpa using hs.buffer

theorem State.Inv.store (hs : s.Inv) {x : Nat} (hx : x < memWords) (v : Word) : (s.store x v).Inv :=
  ⟨Memory.wf_write s.mem x v hs.memory hx, hs.stack, hs.lines, hs.buffer⟩

theorem State.Inv.push (hs : s.Inv) (hroom : s.cfg.stackCapacity ≠ some s.stack.length) (v : Word) :
    State.Inv { s with stack := s.stack ++ [v] } := by
  refine ⟨hs.memory, fun n hn => ?_, hs.lines, hs.buffer⟩
  have hne : s.stack.length ≠ n := fun e => hroom (e ▸ hn)
  have hle := hs.stack n hn
  simp only [List.length_append, List.length_singleton]
  omega

theorem State.Inv.offerLine (hs : s.Inv) {l : Line} (hl : l.wf = true) : (s.offerLine l).Inv := by
  refine ⟨hs.memory, hs.stack, fun m hm => ?_, hs.buffer⟩
  obtain hm | hm := List.mem_append.1 hm
  · exact hs.lines m hm
  · exact List.mem_singleton.1 hm ▸ hl

theorem State.Inv.effect (hs : s.Inv) (h : Effect s i t) : t.Inv := by
  cases h with
  | takes hu ht => exact (hs.takes hu).of_data ht
  | writes hu _ ht => exact ((hs.takes hu).writeDest 1 _ _).of_data ht
  | stores _ hx ht => exact (hs.store hx _).of_data ht
  | pushes hroom ht => exact (hs.push hroom _).of_data ht

/-- Settles O21: nothing is listed in memory, held on the stack, offered or buffered. -/
theorem resetMeetsTheInvariant : Obligations.ResetMeetsTheInvariant := by
  unfold Obligations.ResetMeetsTheInvariant
  exact ⟨rfl, fun n _ => Nat.zero_le n, by simp, .inl rfl⟩

/-- Settles O23: each of the effects an instruction can have keeps the invariant, and a line offered is a
line. -/
theorem everyStepKeepsTheInvariant : Obligations.EveryStepKeepsTheInvariant := by
  unfold Obligations.EveryStepKeepsTheInvariant
  intro s hs
  refine ⟨fun t h => ?_, fun l hl => hs.offerLine hl⟩
  obtain hd | ⟨i, -, he⟩ := step_effect h
  · exact hs.of_data hd
  · exact hs.effect he

/-! ### Registers and memory words -/

theorem Takes.keeps_mem_regs (h : Takes s u) : u.mem = s.mem ∧ u.regs = s.regs := by
  cases h with
  | nothing => exact ⟨rfl, rfl⟩
  | top h =>
    obtain ⟨below, -, rfl⟩ := (s.pop_eq_some u _).1 h
    exact ⟨rfl, rfl⟩
  | code h =>
    obtain ⟨cs, -, rfl⟩ | ⟨-, l, ls, -, -, rfl⟩ := (s.readChar_eq_some u _).1 h <;> exact ⟨rfl, rfl⟩

theorem Takes.reg (h : Takes s u) (k : Fin 8) : u.reg k = s.reg k := by
  simp only [State.reg, h.keeps_mem_regs.2]

theorem Takes.memAt (h : Takes s u) (x : Nat) : u.memAt x = s.memAt x := by
  simp only [State.memAt, h.keeps_mem_regs.1]

/-- A destination write changes no register but the one it names. -/
theorem State.writeDest_reg_of_ne {n v : Word} {a : Operand} {k : Fin 8} (h : a ≠ .register k) :
    (s.writeDest n a v).reg k = s.reg k := by
  cases a with
  | literal w => rfl
  | invalid w => rfl
  | register j => exact (s.setReg_reg j k v).trans (if_neg fun e => h (congrArg _ e.symm))

/-- A destination write changes no memory word but the one its literal names. -/
theorem State.writeDest_memAt_of_ne {n v : Word} {a : Operand} {x : Nat}
    (h : ∀ w, a = .literal w → x ≠ w.toNat) : (s.writeDest n a v).memAt x = s.memAt x := by
  cases a with
  | literal w => exact (s.store_memAt w.toNat x v).trans (if_neg (h w rfl))
  | register j => rfl
  | invalid w => rfl

theorem Effect.dest_of_reg_ne {k : Fin 8} (h : Effect s i t) (hk : t.reg k ≠ s.reg k) :
    i.dest = some (.register k) := by
  cases h with
  | takes hu ht => exact absurd ((State.reg_of_data ht k).trans (hu.reg k)) hk
  | stores _ _ ht => exact absurd (State.reg_of_data ht k) hk
  | pushes _ ht => exact absurd (State.reg_of_data ht k) hk
  | writes hu ha ht =>
    by_contra hne
    have ha' := fun e => hne (ha.trans (congrArg some e))
    exact hk ((State.reg_of_data ht k).trans ((State.writeDest_reg_of_ne ha').trans (hu.reg k)))

theorem Effect.cases_of_memAt_ne {x : Nat} (h : Effect s i t) (hx : t.memAt x ≠ s.memAt x) :
    (∃ a b, i = .wmem a b ∧ x = (operandValue s a).toNat) ∨
      ∃ w, i.dest = some (.literal w) ∧ x = w.toNat := by
  cases h with
  | takes hu ht => exact absurd ((State.memAt_of_data ht x).trans (hu.memAt x)) hx
  | pushes _ ht => exact absurd (State.memAt_of_data ht x) hx
  | stores hi _ ht =>
    refine .inl ⟨_, _, hi, ?_⟩
    by_contra hne
    exact hx ((State.memAt_of_data ht x).trans ((s.store_memAt _ x _).trans (if_neg hne)))
  | writes hu ha ht =>
    by_contra hnone
    have ha' := fun w hw e => hnone (.inr ⟨w, ha.trans (congrArg some hw), e⟩)
    exact hx ((State.memAt_of_data ht x).trans ((State.writeDest_memAt_of_ne ha').trans (hu.memAt x)))

/-- Settles O56: of the effects an instruction can have, only a write to its register destination changes
a register. -/
theorem registersChangeOnlyAsDestinations : Obligations.RegistersChangeOnlyAsDestinations := by
  unfold Obligations.RegistersChangeOnlyAsDestinations
  intro s t k h hk
  obtain hd | ⟨i, hf, he⟩ := step_effect h
  · exact absurd (State.reg_of_data hd k) hk
  · exact State.dest_of_fetch hf (he.dest_of_reg_ne hk)

/-- Settles O57: of the effects an instruction can have, only the store of a `wmem` and a write to a
literal destination change a memory word. -/
theorem memoryChangesOnlyWhereWritten : Obligations.MemoryChangesOnlyWhereWritten := by
  unfold Obligations.MemoryChangesOnlyWhereWritten
  intro s t x h hx
  obtain hd | ⟨i, hf, he⟩ := step_effect h
  · exact absurd (State.memAt_of_data hd x) hx
  · obtain ⟨a, b, rfl, rfl⟩ | ⟨w, hw, rfl⟩ := he.cases_of_memAt_ne hx
    · obtain ⟨hop, ha⟩ := State.wmem_of_fetch hf
      exact .inl ⟨hop, by rw [ha]⟩
    · obtain ⟨hop, ha⟩ := State.dest_of_fetch hf hw
      exact .inr ⟨hop, w, ha, rfl⟩

/-! ### The reset values -/

/-- The memory words of an image that fits (R202): its words in order, and 0 after them. -/
theorem boot_memAt (cfg : Config) {image : List Byte} (h : image.length / 2 ≤ 32768) (n : Nat) :
    (State.boot cfg image).memAt n = (wordsOfBytes image).getD n 0 := by
  rw [boot_of_fits cfg image h, State.memAt, Memory.read_ofWords, if_pos n.zero_le, Nat.sub_zero]

/-- Settles O19: the state a boot leaves has the reset values whatever the image; memory and status are
those of the one of the two cases of the load. -/
theorem resetValues : Obligations.ResetValues := by
  unfold Obligations.ResetValues
  intro cfg image s
  refine ⟨boot_reg cfg image, boot_pc cfg image, boot_stack cfg image, boot_inbuf cfg image,
    fun hfits => ⟨?_, fun n lo hi hlo hhi => ?_, fun n hn => ?_⟩, fun hlarge => ?_⟩
  · exact congrArg State.status (boot_of_fits cfg image hfits)
  · have hlo' := lo.isLt
    have hhi' := hi.isLt
    rw [boot_memAt cfg hfits, List.getD_eq_getElem?_getD, getElem?_wordsOfBytes image n lo hi hlo hhi,
      Option.getD_some, BitVec.toNat_ofNat]
    omega
  · rw [boot_memAt cfg hfits, List.getD_eq_default]
    rwa [length_wordsOfBytes]
  · exact congrArg State.status (boot_of_tooLarge cfg image hlarge)

end Machine

end Sys2Proof
end

section
/-! PROOF. No step reads the history of OUT_CHAR or DIAG: the fetch and every meaning commute with putting
an older history before the state's own. -/

namespace Sys2Proof.Machine

variable {s : State} (u : State)

/-! ### What an older history leaves alone -/

@[simp] theorem State.afterTracesOf_mem : (s.afterTracesOf u).mem = u.mem := rfl
@[simp] theorem State.afterTracesOf_pc : (s.afterTracesOf u).pc = u.pc := rfl
@[simp] theorem State.afterTracesOf_stack : (s.afterTracesOf u).stack = u.stack := rfl
@[simp] theorem State.afterTracesOf_inbuf : (s.afterTracesOf u).inbuf = u.inbuf := rfl
@[simp] theorem State.afterTracesOf_status : (s.afterTracesOf u).status = u.status := rfl
@[simp] theorem State.afterTracesOf_inLine : (s.afterTracesOf u).inLine = u.inLine := rfl
@[simp] theorem State.afterTracesOf_cfg : (s.afterTracesOf u).cfg = u.cfg := rfl
@[simp] theorem State.afterTracesOf_memAt (x : Nat) : (s.afterTracesOf u).memAt x = u.memAt x := rfl

@[simp] theorem operandValue_afterTracesOf (o : Operand) :
    operandValue (s.afterTracesOf u) o = operandValue u o := by
  cases o <;> rfl

@[simp] theorem State.afterTracesOf_memoryOperand (o : Operand) :
    (s.afterTracesOf u).memoryOperand o = u.memoryOperand o := by
  cases o <;> rfl

@[simp] theorem State.afterTracesOf_window (n a : Nat) :
    (s.afterTracesOf u).window n a = u.window n a := by
  induction n generalizing a with
  | zero => rfl
  | succ n ih => simp [State.window_succ, ih]

@[simp] theorem State.afterTracesOf_fetch : (s.afterTracesOf u).fetch = u.fetch := by
  simp [State.fetch]

@[simp] theorem State.afterTracesOf_withoutTraces : s.afterTracesOf s.withoutTraces = s := by
  simp [State.afterTracesOf, State.withoutTraces]

/-! ### Operations commute with putting an older history before -/

@[simp] theorem State.log_afterTracesOf (es : List DiagEvent) :
    (s.afterTracesOf u).log es = s.afterTracesOf (u.log es) := by
  simp [State.afterTracesOf, State.log]

@[simp] theorem State.writeDest_afterTracesOf (n : Word) (a : Operand) (v : Word) :
    (s.afterTracesOf u).writeDest n a v = s.afterTracesOf (u.writeDest n a v) := by
  cases a with
  | literal w => rfl
  | register k => rfl
  | invalid w => exact State.log_afterTracesOf u _

@[simp] theorem State.store_afterTracesOf (x : Nat) (v : Word) :
    (s.afterTracesOf u).store x v = s.afterTracesOf (u.store x v) := rfl
@[simp] theorem State.setPc_afterTracesOf (p : Word) :
    (s.afterTracesOf u).setPc p = s.afterTracesOf (u.setPc p) := rfl
@[simp] theorem State.advance_afterTracesOf (n : Word) :
    (s.afterTracesOf u).advance n = s.afterTracesOf (u.advance n) := rfl
@[simp] theorem State.halt_afterTracesOf (r : HaltReason) :
    (s.afterTracesOf u).halt r = s.afterTracesOf (u.halt r) := rfl
@[simp] theorem State.raise_afterTracesOf (k : FaultKind) :
    (s.afterTracesOf u).raise k = s.afterTracesOf (u.raise k) := rfl

/-! ### The meanings -/

@[simp] theorem sameAfterTracesOf_next (t : State) :
    SameAfterTracesOf s (.next t) (.next u) ↔ t = s.afterTracesOf u := Iff.rfl

theorem aluBinary_afterTracesOf (f : Word → Word → Word) (a b c : Operand) :
    SameAfterTracesOf s (aluBinary f a b c (s.afterTracesOf u)) (aluBinary f a b c u) := by
  simp [aluBinary_eq]

theorem execMod_afterTracesOf (a b c : Operand) :
    SameAfterTracesOf s (execMod a b c (s.afterTracesOf u)) (execMod a b c u) := by
  simp only [execMod_eq, operandValue_afterTracesOf]
  split_ifs <;> simp

theorem execRmem_afterTracesOf (a b : Operand) :
    SameAfterTracesOf s (execRmem a b (s.afterTracesOf u)) (execRmem a b u) := by
  cases hm : u.cfg.rmemMode with
  | indirect =>
    simp only [execRmem, State.afterTracesOf_cfg, hm, rmemIndirect_eq, operandValue_afterTracesOf]
    split_ifs <;> simp
  | direct => simp [execRmem, hm, rmemDirect_eq]

theorem execWmem_afterTracesOf (a b : Operand) :
    SameAfterTracesOf s (execWmem a b (s.afterTracesOf u)) (execWmem a b u) := by
  simp only [execWmem_eq, operandValue_afterTracesOf]
  split_ifs <;> simp

theorem execPush_afterTracesOf (a : Operand) :
    SameAfterTracesOf s (execPush a (s.afterTracesOf u)) (execPush a u) := by
  simp only [execPush_eq, State.afterTracesOf_cfg, State.afterTracesOf_stack, State.afterTracesOf_pc,
    operandValue_afterTracesOf, State.log_afterTracesOf]
  split_ifs <;> rfl

theorem execCall_afterTracesOf (a : Operand) :
    SameAfterTracesOf s (execCall a (s.afterTracesOf u)) (execCall a u) := by
  simp only [execCall_eq, State.afterTracesOf_cfg, State.afterTracesOf_stack, State.afterTracesOf_pc,
    operandValue_afterTracesOf, State.log_afterTracesOf]
  split_ifs <;> rfl

theorem execPop_afterTracesOf (a : Operand) :
    SameAfterTracesOf s (execPop a (s.afterTracesOf u)) (execPop a u) := by
  rcases List.eq_nil_or_concat' u.stack with h | ⟨below, v, h⟩
  · rw [execPop_of_empty u a h, execPop_of_empty (s.afterTracesOf u) a h]
    rfl
  · rw [execPop_of_concat u a below v h, execPop_of_concat (s.afterTracesOf u) a below v h]
    exact congrArg (State.advance 2) (State.writeDest_afterTracesOf { u with stack := below } 1 a v)

theorem execRet_afterTracesOf :
    SameAfterTracesOf s (execRet (s.afterTracesOf u)) (execRet u) := by
  rcases List.eq_nil_or_concat' u.stack with h | ⟨below, v, h⟩
  · rw [execRet_of_empty u h, execRet_of_empty (s.afterTracesOf u) h]
    rfl
  · rw [execRet_of_concat u below v h, execRet_of_concat (s.afterTracesOf u) below v h]
    rfl

theorem execInp_afterTracesOf (a : Operand) :
    SameAfterTracesOf s (execInp a (s.afterTracesOf u)) (execInp a u) := by
  cases hb : u.inbuf with
  | cons c cs =>
    rw [execInp_of_cons u a c cs hb, execInp_of_cons (s.afterTracesOf u) a c cs hb]
    exact congrArg (State.advance 2) (State.writeDest_afterTracesOf { u with inbuf := cs } 1 a c)
  | nil =>
    cases hl : u.inLine with
    | nil =>
      rw [execInp_of_nothing u a hb hl, execInp_of_nothing (s.afterTracesOf u) a hb hl]
      rfl
    | cons l ls =>
      rw [execInp_of_line u a l ls hb hl, execInp_of_line (s.afterTracesOf u) a l ls hb hl]
      exact congrArg (State.advance 2)
        (State.writeDest_afterTracesOf { u with inbuf := l.rest, inLine := ls } 1 a l.first)

theorem execOut_afterTracesOf (a : Operand) :
    SameAfterTracesOf s (execOut a (s.afterTracesOf u)) (execOut a u) := by
  rw [execOut_eq, execOut_eq, operandValue_afterTracesOf]
  simp [State.afterTracesOf]

/-- An instruction does, emits and logs the same after an older history. -/
theorem exec_afterTracesOf (i : Instr) :
    SameAfterTracesOf s (exec i (s.afterTracesOf u)) (exec i u) := by
  cases i with
  | eq | gt | add | mult | and | or => exact aluBinary_afterTracesOf u _ _ _ _
  | mod => exact execMod_afterTracesOf u _ _ _
  | rmem => exact execRmem_afterTracesOf u _ _
  | wmem => exact execWmem_afterTracesOf u _ _
  | push => exact execPush_afterTracesOf u _
  | pop => exact execPop_afterTracesOf u _
  | call => exact execCall_afterTracesOf u _
  | ret => exact execRet_afterTracesOf u
  | out => exact execOut_afterTracesOf u _
  | inp => exact execInp_afterTracesOf u _
  | halt | noop => rfl
  | set | not | jmp | jt | jf =>
    simp [exec, execSet_eq, execNot_eq, execJmp_eq, execJt_eq, execJf_eq]

theorem step_afterTracesOf : SameAfterTracesOf s (step (s.afterTracesOf u)) (step u) := by
  have hfetch := State.afterTracesOf_fetch (s := s) u
  by_cases hr : u.status = .running
  · cases hf : u.fetch with
    | instr i =>
      rw [step_of_instr u hr i hf, step_of_instr (s.afterTracesOf u) hr i (hfetch.trans hf)]
      exact exec_afterTracesOf u i
    | unknownOpcode op =>
      rw [step_of_unknownOpcode u hr op hf,
        step_of_unknownOpcode (s.afterTracesOf u) hr op (hfetch.trans hf)]
      simp
    | outOfRange a =>
      rw [step_of_outOfRange u hr a hf, step_of_outOfRange (s.afterTracesOf u) hr a (hfetch.trans hf)]
      rfl
  · rw [step_of_stopped u hr, step_of_stopped (s.afterTracesOf u) hr]
    rfl

/-- Settles O59: a state is its trace-free self after its own histories, and a step commutes with putting
histories before. -/
theorem noStepReadsTheTraces : Obligations.NoStepReadsTheTraces := by
  unfold Obligations.NoStepReadsTheTraces
  intro s
  have h := step_afterTracesOf (s := s) s.withoutTraces
  rwa [State.afterTracesOf_withoutTraces] at h

end Sys2Proof.Machine
end

section
/-! PROOF. The classes of a word, and a store seen by the next fetch (20_memory.md): what memory holds at
`pc` is the opcode word, whichever instruction put it there. -/

namespace Sys2Proof.Machine

variable {s t : State}

/-- Settles O2: the three ranges are the three branches of `Classify`, and a word within a branch's range
loses nothing to the narrower literal or register number. -/
theorem classifyPartitionsWords : Obligations.ClassifyPartitionsWords := by
  unfold Obligations.ClassifyPartitionsWords
  intro w
  refine ⟨fun h => ⟨_, classify_of_le w h, ?_⟩, fun h h' => ⟨_, classify_of_register w h h', ?_⟩,
    classify_of_invalid w⟩
  · rw [BitVec.toNat_setWidth]
    omega
  · rw [Fin.val_ofNat]
    omega

/-! ### A store into the instruction stream -/

/-- A fetch at a word 0 below the top gives `halt`, which has no operand words. -/
theorem State.fetch_of_opcode_zero (hpc : s.pc.toNat ≤ 32767) (hop : s.opcode = 0) :
    s.fetch = .instr .halt := by
  refine State.fetch_eq_instr_iff.2 ⟨rfl, fun k hk => ?_⟩
  obtain rfl : k = 0 := Nat.lt_one_iff.1 hk
  exact ⟨hpc, hop⟩

/-- A running block whose opcode word is 0 halts (R93). -/
theorem step_of_opcode_zero (hrun : s.status = .running) (hpc : s.pc.toNat ≤ 32767)
    (hop : s.opcode = 0) : step s = .next (s.halt .haltInstruction) :=
  step_of_instr s hrun .halt (State.fetch_of_opcode_zero hpc hop)

/-- R62, R207: a word the memory holds at `pc` is the opcode word of the next step, and 0 there halts. -/
theorem opcode_and_halt_of_memAt_pc {v : Word} (hrun : t.status = .running) (hpc : t.pc.toNat ≤ 32767)
    (hv : t.memAt t.pc.toNat = v) :
    t.opcode = v ∧ (v = 0 → step t = .next (t.halt .haltInstruction)) :=
  ⟨hv, fun h0 => step_of_opcode_zero hrun hpc (hv.trans h0)⟩

/-- The same of a value delivered to the literal address that `pc` now is at, which is in memory. -/
theorem opcode_and_halt_of_delivered {w : BitVec 15} {v : Word} (hrun : t.status = .running)
    (hd : Delivered (.literal w) v s t) (hpc : t.pc.toNat = w.toNat) :
    t.opcode = v ∧ (v = 0 → step t = .next (t.halt .haltInstruction)) := by
  obtain ⟨hv, -, -⟩ := hd
  have hw := w.isLt
  exact opcode_and_halt_of_memAt_pc hrun (by omega) (by rw [hpc, hv])

/-- Settles O28: in each of the three clauses memory holds the stored value at the next state's `pc`: a
`wmem` stores it at the address it computes, the other two deliver it to their literal. -/
theorem storeIsSeenByTheNextFetch : Obligations.StoreIsSeenByTheNextFetch := by
  unfold Obligations.StoreIsSeenByTheNextFetch
  refine ⟨fun a b s hrun ha hle => ?_, fun w b s hrun hw => ?_,
    fun _ _ _ _ _ _ hrun hd hpc => opcode_and_halt_of_delivered hrun hd hpc⟩
  · have hlt : (operandValue s a).toNat < memWords := by
      rw [ha]
      exact Nat.lt_succ_of_le hle
    exact ⟨_, (execWmem_eq s a b).trans (if_pos hlt), rfl,
      opcode_and_halt_of_memAt_pc hrun hle (by simp [ha])⟩
  · obtain ⟨hd, hpc, -, -, -, hst, -⟩ :=
      s.writesResult (.literal w) (operandValue s b) 3 (encodingEvent (s.pc + 2) b)
    exact ⟨_, execSet_eq s (.literal w) b, hpc,
      opcode_and_halt_of_delivered (hst.trans hrun) hd (by rw [hpc, hw])⟩

end Sys2Proof.Machine
end

section
/-! PROOF. The encoding (30_encoding.md): decoding and encoding are inverse, the opcode word alone fixes
how many operand words are read, and every instruction that decodes has its meaning. -/

namespace Sys2Proof

/-! ### The decoder against the encoder -/

/-- Settles O3: each operand of a well-formed instruction is the class of its word. -/
theorem decodeInvertsEncode : Obligations.DecodeInvertsEncode := by
  unfold Obligations.DecodeInvertsEncode
  exact fun _ rest h => decode_encode_append rest h

/-- Settles O4: what is read is an instruction of its opcode word, with the classes of the operand words. -/
theorem encodeInvertsDecode : Obligations.EncodeInvertsDecode := by
  unfold Obligations.EncodeInvertsDecode
  exact fun _ _ _ h => wf_and_encode_append_of_decode h

/-- Settles O1, by running the decoder on the words the spec writes out. -/
theorem specWordsDecodeAsWritten : Obligations.SpecWordsDecodeAsWritten := by
  unfold Obligations.SpecWordsDecodeAsWritten
  exact ⟨rfl, rfl, rfl⟩

/-! ### The opcode word and the number of operand words -/

open Machine in
/-- R80: the format table has a row for each opcode word up to 21. -/
theorem operandCount_of_le {op : Word} (h : op.toNat ≤ 21) : ∃ n, operandCount op.toNat = some n := by
  obtain ⟨hlt, -⟩ | ⟨_, -, hc, -⟩ | ⟨_, -, hc, -⟩ | ⟨_, -, hc, -⟩ | ⟨_, -, hc, -⟩ := formatOf_cases op
  · omega
  all_goals exact ⟨_, hc⟩

/-- R81: an opcode word above 21 is refused before any operand word is looked at. -/
theorem decode_of_gt {op : Word} (ws : List Word) (h : 21 < op.toNat) :
    decode (op :: ws) = .error (.unknownOpcode op) := by
  obtain ⟨-, hf⟩ | ⟨_, -, hc, -⟩ | ⟨_, -, hc, -⟩ | ⟨_, -, hc, -⟩ | ⟨_, -, hc, -⟩ := formatOf_cases op
  · exact decode_of_none op ws hf
  all_goals
    have := le_of_operandCount _ _ hc
    omega

/-- Settles O5: in each format the words after the opcode are either enough for its operands, or end
before one of them. -/
theorem opcodeAloneChoosesTheFormat : Obligations.OpcodeAloneChoosesTheFormat := by
  unfold Obligations.OpcodeAloneChoosesTheFormat
  intro op ws n hn
  rcases formatOf_cases op with
    ⟨hlt, -⟩ | ⟨i, hf, hc, he, -⟩ | ⟨f, hf, hc, he⟩ | ⟨f, hf, hc, he⟩ | ⟨f, hf, hc, he⟩
  · have := le_of_operandCount _ _ hn
    omega
  all_goals cases hc.symm.trans hn
  · exact ⟨fun _ => ⟨i, decode_of_f0 op ws i hf, he⟩, fun h => absurd h (Nat.not_lt_zero _)⟩
  · rcases ws with _ | ⟨a, ws⟩ <;> simp [decode, hf, he]
  · rcases ws with _ | ⟨a, _ | ⟨b, ws⟩⟩ <;> simp [decode, hf, he]
  · rcases ws with _ | ⟨a, _ | ⟨b, _ | ⟨c, ws⟩⟩⟩ <;> simp [decode, hf, he]

/-- Settles O6: by the number of operand words of the opcode, and for the converse because too few of them
are an error. -/
theorem onlyTheTwentyTwoOpcodesDecode : Obligations.OnlyTheTwentyTwoOpcodesDecode := by
  unfold Obligations.OnlyTheTwentyTwoOpcodesDecode
  refine fun op ws => ⟨decode_of_gt ws, fun hle => ?_⟩
  obtain ⟨n, hn⟩ := operandCount_of_le hle
  obtain ⟨henough, hfew⟩ := opcodeAloneChoosesTheFormat op ws n hn
  refine ⟨n, hn, ⟨fun ⟨i, rest, hd⟩ => ?_, fun h => ?_⟩, hfew⟩
  · by_contra hlt
    cases hd.symm.trans (hfew (Nat.lt_of_not_le hlt))
  · obtain ⟨i, hd, -⟩ := henough h
    exact ⟨i, _, hd⟩

namespace Machine

variable (s : State)

/-! ### Every opcode has its meaning -/

/-- What a meaning answers: a next state, or, for an `in` that has no code to read, that it waits (R97). -/
theorem exec_next_or_waits (i : Instr) :
    (∃ t, exec i s = .next t) ∨
      ∃ a, i = .inp a ∧ s.inbuf = [] ∧ s.inLine = [] ∧ exec i s = .fault .waitingForLine := by
  cases i with
  | inp a =>
    cases hr : s.readChar with
    | none =>
      obtain ⟨hb, hl⟩ := s.readChar_eq_none.1 hr
      exact .inr ⟨a, rfl, hb, hl, execInp_of_nothing s a hb hl⟩
    | some p => exact .inl ⟨_, by rw [exec, execInp, hr]⟩
  | halt | noop | set | not | out | jmp | jt | jf | eq | gt | add | mult | and | or => exact .inl ⟨_, rfl⟩
  | mod | wmem | push | call =>
    simp only [exec, execMod_eq, execWmem_eq, execPush_eq, execCall_eq]
    split_ifs <;> exact .inl ⟨_, rfl⟩
  | rmem a b =>
    simp only [exec, execRmem, rmemIndirect_eq, rmemDirect_eq]
    split
    · split_ifs <;> exact .inl ⟨_, rfl⟩
    · exact .inl ⟨_, rfl⟩
  | pop | ret =>
    simp only [exec, execPop, execRet]
    split <;> exact .inl ⟨_, rfl⟩

theorem exec_ne_refused (i : Instr) (r : Refusal) : exec i s ≠ .refused r := by
  obtain ⟨t, h⟩ | ⟨a, -, -, -, h⟩ := exec_next_or_waits s i <;> simp [h]

/-- Settles O13: a step is a stop, which is not refused, or the meaning of the instruction it fetched. -/
theorem noStepIsRefused : Obligations.NoStepIsRefused := by
  unfold Obligations.NoStepIsRefused
  intro s r
  by_cases hrun : s.status = .running
  · cases hf : s.fetch with
    | instr i =>
      rw [step_of_instr s hrun i hf]
      exact exec_ne_refused s i r
    | unknownOpcode op => simp [step_of_unknownOpcode s hrun op hf]
    | outOfRange a => simp [step_of_outOfRange s hrun a hf]
  · simp [step_of_stopped s hrun]

end Machine

end Sys2Proof
end

section
/-! PROOF. The dispatch loop (40_dispatch.md): what a step does by what its fetch finds, and when it is
enabled. -/

namespace Sys2Proof.Machine

variable {s : State}

/-! ### What the fetch finds -/

/-- R72: no format has more operand words than F3. -/
theorem le_three_of_operandCount {op n : Nat} (h : operandCount op = some n) : n ≤ 3 := by
  unfold operandCount at h
  split_ifs at h <;> cases h <;> decide

/-- R92: an opcode word above 21 is found as soon as it is read, whatever follows it. -/
theorem State.fetch_of_opcode_gt (hpc : s.pc.toNat ≤ 32767) (hop : 21 < s.opcode.toNat) :
    s.fetch = .unknownOpcode s.opcode := by
  rw [State.fetch, s.window_at_pc 3 (Nat.lt_succ_of_le hpc), decode_of_gt _ hop]

/-- R90 (D4): above the top the opcode word itself is missing. -/
theorem State.fetch_of_pc_gt (hpc : 32767 < s.pc.toNat) : s.fetch = .outOfRange s.pc := by
  rw [State.fetch, s.window_of_ge 4 _ hpc]
  simp [decode]

/-- R91 (D4): below the top the first operand word missing is the one at address 32768. -/
theorem State.fetch_of_operand_above_top {n : Nat} (hpc : s.pc.toNat ≤ 32767)
    (hn : operandCount s.opcode.toNat = some n) (htop : 32767 < s.pc.toNat + n) :
    s.fetch = .outOfRange 32768 := by
  have hle := le_three_of_operandCount hn
  have hlen : (s.window 3 (s.pc.toNat + 1)).length = 32767 - s.pc.toNat := by
    rw [State.length_window, memWords]
    omega
  have hfew := (opcodeAloneChoosesTheFormat _ (s.window 3 (s.pc.toNat + 1)) n hn).2 (by omega)
  have haddr : s.pc + BitVec.ofNat 16 (32767 - s.pc.toNat + 1) = 32768 := by bv_omega
  rw [hlen] at hfew
  rw [State.fetch, s.window_at_pc 3 (Nat.lt_succ_of_le hpc), hfew, ← haddr]

/-- R91: an instruction with one operand word is fetched exactly from its opcode word with that word in
memory. -/
theorem State.fetch_eq_iff_of_one_operand {f : Operand → Instr} {op : Word} {a : Operand}
    (he : ∀ b, encode (f b) = [op, b.word]) (hwf : ∀ b, (f b).wf = b.wf) :
    s.fetch = .instr (f a) ↔
      (s.opcode = op ∧ s.pc.toNat + 1 ≤ 32767) ∧ s.operandAt 1 = a := by
  rw [State.fetch_eq_instr_iff, hwf]
  constructor
  · rintro ⟨hw, h⟩
    simp only [State.holdsInstr, he] at h
    obtain ⟨-, hop⟩ := h 0 Nat.two_pos
    obtain ⟨hpc, ha⟩ := h 1 Nat.one_lt_two
    exact ⟨⟨hop, hpc⟩, (congrArg classify ha).trans (classify_word a hw)⟩
  · rintro ⟨⟨hop, hpc⟩, rfl⟩
    refine ⟨classify_wf _, ?_⟩
    simp only [State.holdsInstr, he]
    intro k hk
    have hk : k < 2 := hk
    interval_cases k
    · exact ⟨by omega, hop⟩
    · exact ⟨hpc, (word_classify _).symm⟩

/-! ### The steps that fetch no instruction -/

/-- Settles O8: the opcode word is read, and no operand word is looked at. -/
theorem unknownOpcodeHalts : Obligations.UnknownOpcodeHalts := by
  unfold Obligations.UnknownOpcodeHalts
  exact fun s hrun hpc hop =>
    step_of_unknownOpcode s hrun s.opcode (State.fetch_of_opcode_gt hpc hop)

/-- Settles O10: the operand words up to the top are there, and the next address is 32768. -/
theorem operandFetchAboveTopFaults : Obligations.OperandFetchAboveTopFaults := by
  unfold Obligations.OperandFetchAboveTopFaults
  exact fun s _ hrun hpc hn htop =>
    step_of_outOfRange s hrun 32768 (State.fetch_of_operand_above_top hpc hn htop)

/-- Settles O9: the fetch finds no opcode word. -/
theorem opcodeFetchAboveTopFaults : Obligations.OpcodeFetchAboveTopFaults := by
  unfold Obligations.OpcodeFetchAboveTopFaults
  exact fun s hrun hpc => step_of_outOfRange s hrun s.pc (State.fetch_of_pc_gt hpc)

/-! ### The steps that run an instruction -/

/-- Settles O7: the fetch gives the well-formed instruction that memory holds at `pc`. -/
theorem stepRunsTheInstructionAtPc : Obligations.StepRunsTheInstructionAtPc := by
  unfold Obligations.StepRunsTheInstructionAtPc
  exact fun i s hwf hrun hholds =>
    step_of_instr s hrun i (State.fetch_eq_instr_iff.2 ⟨hwf, hholds⟩)

/-- Settles O17: the meaning of `halt` takes the stop and nothing else. -/
theorem haltStopsTheBlock : Obligations.HaltStopsTheBlock := by
  unfold Obligations.HaltStopsTheBlock
  exact fun _ => rfl

/-- Settles O18: the meaning of `noop` is the fall-through alone. -/
theorem noopOnlyAdvances : Obligations.NoopOnlyAdvances := by
  unfold Obligations.NoopOnlyAdvances
  exact fun _ => rfl

/-! ### When a step is enabled -/

/-- R97: a running block waits exactly if it fetches an `in` and has no code to read. -/
theorem State.waits_iff :
    s.waits ↔ s.status = .running ∧ (∃ a, s.fetch = .instr (.inp a)) ∧ s.inbuf = [] ∧ s.inLine = [] := by
  have hinp (a : Operand) := State.fetch_eq_iff_of_one_operand (s := s) (f := .inp) (a := a)
    (fun _ => rfl) (fun _ => rfl)
  simp only [hinp, exists_and_left, exists_eq', and_true, State.waits]
  tauto

/-- R151: a waiting block answers no next state. -/
theorem step_of_waits (h : s.waits) : step s = .fault .waitingForLine := by
  obtain ⟨hrun, ⟨a, hf⟩, hb, hl⟩ := State.waits_iff.1 h
  rw [step_of_instr s hrun _ hf]
  exact execInp_of_nothing s a hb hl

/-- Settles O11: a stop on the way to an instruction is a next state, and so is what a fetched instruction
answers, unless it is an `in` that waits. -/
theorem stepEnabledUnlessStoppedOrWaiting : Obligations.StepEnabledUnlessStoppedOrWaiting := by
  unfold Obligations.StepEnabledUnlessStoppedOrWaiting
  intro s
  constructor
  · rintro ⟨t, ht⟩
    obtain ⟨hrun, -⟩ := step_cases s t ht
    exact ⟨hrun, fun hw => by cases ht.symm.trans (step_of_waits hw)⟩
  · rintro ⟨hrun, hwaits⟩
    cases hf : s.fetch with
    | instr i =>
      rw [step_of_instr s hrun i hf]
      obtain hnext | ⟨a, rfl, hb, hl, -⟩ := exec_next_or_waits s i
      · exact hnext
      · exact absurd (State.waits_iff.2 ⟨hrun, ⟨a, hf⟩, hb, hl⟩) hwaits
    | unknownOpcode op => exact ⟨_, step_of_unknownOpcode s hrun op hf⟩
    | outOfRange a => exact ⟨_, step_of_outOfRange s hrun a hf⟩

end Sys2Proof.Machine
end

section
/-! PROOF. Data movement (41_data_movement.md): `set` and `rmem` deliver one value to a destination, `wmem`
stores one word at the address it computes. -/

namespace Sys2Proof.Machine

variable (s : State)

/-! ### `set` -/

/-- Settles O24: the value is delivered as it is. -/
theorem setCopiesItsValue : Obligations.SetCopiesItsValue := by
  unfold Obligations.SetCopiesItsValue
  exact fun a b s => ⟨_, execSet_eq s a b, s.writesResult a (operandValue s b) 3 _⟩

/-! ### `rmem` -/

theorem exec_rmem_of_indirect (a b : Operand) (h : s.cfg.rmemMode = .indirect) :
    exec (.rmem a b) s = rmemIndirect a b s := by
  rw [exec, execRmem, h]

theorem exec_rmem_of_direct (a b : Operand) (h : s.cfg.rmemMode = .direct) :
    exec (.rmem a b) s = rmemDirect a b s := by
  rw [exec, execRmem, h]

/-- Settles O25: the value of `b` is an address, and the bound of memory decides between the word there and
the fault. -/
theorem rmemIndirectReadsMemory : Obligations.RmemIndirectReadsMemory := by
  unfold Obligations.RmemIndirectReadsMemory
  intro a b s hmode
  rw [exec_rmem_of_indirect s a b hmode, rmemIndirect_eq]
  exact ⟨fun hle => ⟨_, if_pos (Nat.lt_succ_of_le hle), s.writesResult a _ 3 _⟩,
    fun hgt => if_neg (Nat.not_lt_of_le hgt)⟩

/-- Settles O26: what is delivered is `readMemoryOperand` of `b` (R103), which each class of `b` fixes. -/
theorem rmemDirectReadsOperand : Obligations.RmemDirectReadsOperand := by
  unfold Obligations.RmemDirectReadsOperand
  intro a b s hmode
  exact ⟨_, s.memoryOperand b, (exec_rmem_of_direct s a b hmode).trans (rmemDirect_eq s a b),
    fun _ hliteral => hliteral ▸ rfl, fun _ hregister => hregister ▸ rfl, fun _ hinvalid => hinvalid ▸ rfl,
    s.writesResult a (s.memoryOperand b) 3 _⟩

/-! ### `wmem` -/

/-- Settles O27: the bound of memory decides between the store, which leaves every other word as it was, and
the fault. -/
theorem wmemStoresAtItsAddress : Obligations.WmemStoresAtItsAddress := by
  unfold Obligations.WmemStoresAtItsAddress
  intro a b s addr es
  have hexec := execWmem_eq s a b
  refine ⟨fun hle => ?_, fun hgt => hexec.trans (if_neg (Nat.not_lt_of_le hgt))⟩
  have hread (x : Nat) := (s.log es).store_memAt addr.toNat x (operandValue s b)
  exact ⟨_, hexec.trans (if_pos (Nat.lt_succ_of_le hle)), (hread _).trans (if_pos rfl),
    fun x hx => (hread x).trans (if_neg hx), rfl, rfl, rfl, rfl, rfl, rfl, rfl, rfl, rfl⟩

end Sys2Proof.Machine
end

section
/-! PROOF. The stack controller (42_stack.md): `push` and `pop` undo each other at the top, and no other
instruction but `call` and `ret` touches the stack. -/

namespace Sys2Proof.Machine

variable {s t : State} {i : Instr}

/-! ### `push` and `pop` -/

/-- Settles O29: the capacity decides between the value on top and the overflow. -/
theorem pushAppendsItsValue : Obligations.PushAppendsItsValue := by
  unfold Obligations.PushAppendsItsValue
  exact fun a s => ⟨fun hroom => (execPush_eq s a).trans (if_neg hroom),
    fun hfull => (execPush_eq s a).trans (if_pos hfull)⟩

/-- Settles O30: the top is taken first, and delivering it to any destination leaves the rest of the stack
as it is. -/
theorem popDeliversTheTop : Obligations.PopDeliversTheTop := by
  unfold Obligations.PopDeliversTheTop
  intro a s below v hs
  have hwrites := State.writesResult { s with stack := below } a v 2 []
  rw [State.log_nil] at hwrites
  exact ⟨_, execPop_of_concat s a below v hs, State.writeDest_stack _ 1 a v, hwrites⟩

/-- What counts as delivered depends on the memory and the registers of the start alone. -/
theorem Delivered.of_mem_regs {u : State} {a : Operand} {v : Word} (hd : Delivered a v s u)
    (hmem : s.mem = t.mem) (hregs : s.regs = t.regs) : Delivered a v t u := by
  simpa only [Delivered, State.memAt, State.reg, hmem, hregs] using hd

/-- Settles O32: a push with room leaves its value on top of the stack of the start (O29), and the pop
delivers that top (O30) to a state whose memory and registers are still those of the start. -/
theorem pushThenPopRestores : Obligations.PushThenPopRestores := by
  unfold Obligations.PushThenPopRestores
  intro a b s hroom
  obtain ⟨t, hpush, htop, hmem, hregs⟩ : ∃ t, exec (.push a) s = .next t ∧
      t.stack = s.stack ++ [operandValue s a] ∧ t.mem = s.mem ∧ t.regs = s.regs :=
    ⟨_, (pushAppendsItsValue a s).1 hroom, rfl, rfl, rfl⟩
  obtain ⟨u, hpop, hstack, hdelivered, -⟩ := popDeliversTheTop b t s.stack (operandValue s a) htop
  exact ⟨t, u, hpush, hpop, hstack, hdelivered.of_mem_regs hmem hregs⟩

/-! ### What touches the stack -/

/-- R111: what `Pop` gives is the top, and what it leaves is the stack below. -/
theorem State.stack_of_pop {v : Word} (h : s.pop = some (v, t)) : s.stack = t.stack ++ [v] := by
  obtain ⟨below, hs, rfl⟩ := (s.pop_eq_some t v).1 h
  exact hs

theorem aluBinary_keeps_stack {f : Word → Word → Word} {a b c : Operand}
    (h : aluBinary f a b c s = .next t) : t.stack = s.stack := by
  rw [aluBinary_eq] at h
  cases h
  simp

theorem execRmem_keeps_stack {a b : Operand} (h : execRmem a b s = .next t) : t.stack = s.stack := by
  unfold execRmem at h
  split at h
  · rw [rmemIndirect_eq] at h
    split at h <;> cases h <;> simp
  · rw [rmemDirect_eq] at h
    cases h
    simp

theorem State.readChar_keeps_stack {c : Word} (h : s.readChar = some (c, t)) : t.stack = s.stack := by
  obtain ⟨cs, -, rfl⟩ | ⟨-, l, ls, -, -, rfl⟩ := (s.readChar_eq_some t c).1 h <;> rfl

theorem execInp_keeps_stack {a : Operand} (h : execInp a s = .next t) : t.stack = s.stack := by
  unfold execInp at h
  split at h <;> cases h
  next hc => simpa using State.readChar_keeps_stack hc

/-- R115: `push` and `call` append one entry, `pop` and `ret` take the last one, and nothing else changes
the stack. -/
theorem exec_stack_cases (h : exec i s = .next t) :
    t.stack = s.stack ∨
      ((∃ a, i = .push a ∨ i = .call a) ∧ ∃ v, t.stack = s.stack ++ [v]) ∨
      (((∃ a, i = .pop a) ∨ i = .ret) ∧ ∃ v, s.stack = t.stack ++ [v]) := by
  cases i with
  | push | call =>
    simp only [exec, execPush_eq, execCall_eq] at h
    split at h <;> cases h
    · exact .inl rfl
    · exact .inr (.inl ⟨by simp, _, rfl⟩)
  | pop | ret =>
    simp only [exec, execPop, execRet] at h
    split at h <;> cases h
    · exact .inl rfl
    · next hp => exact .inr (.inr ⟨by simp, _, by simpa using State.stack_of_pop hp⟩)
  | eq | gt | add | mult | and | or => exact .inl (aluBinary_keeps_stack h)
  | rmem => exact .inl (execRmem_keeps_stack h)
  | inp => exact .inl (execInp_keeps_stack h)
  | halt | noop =>
    cases h
    exact .inl rfl
  | set | not | out | jmp | jt | jf =>
    simp only [exec, execSet_eq, execNot_eq, execOut_eq, execJmp_eq, execJt_eq, execJf_eq] at h
    cases h
    simp
  | mod | wmem =>
    simp only [exec, execMod_eq, execWmem_eq] at h
    split at h <;> cases h <;> simp

/-- The opcode word at `pc` is the first word of the instruction fetched there. -/
theorem State.opcode_of_fetch {op : Word} {ws : List Word} (hf : s.fetch = .instr i)
    (he : encode i = op :: ws) : s.opcode = op := by
  obtain ⟨-, hholds⟩ := State.fetch_eq_instr_iff.1 hf
  simp only [State.holdsInstr, he] at hholds
  exact (hholds 0 (by simp)).2

/-- Settles O58: a step that changes the stack runs an instruction, one of the four, and the opcode word
says which. -/
theorem stackChangesByOneAtItsTop : Obligations.StackChangesByOneAtItsTop := by
  unfold Obligations.StackChangesByOneAtItsTop
  intro s t h hne
  obtain ⟨-, ⟨i, hf, he⟩ | ⟨op, -, rfl⟩ | ⟨a, -, rfl⟩⟩ := step_cases s t h
  · obtain hkeeps | ⟨⟨a, rfl | rfl⟩, hv⟩ | ⟨⟨a, rfl⟩ | rfl, hv⟩ := exec_stack_cases he
    · exact absurd hkeeps hne
    · exact .inl ⟨by rw [State.opcode_of_fetch hf rfl]; decide, hv⟩
    · exact .inl ⟨by rw [State.opcode_of_fetch hf rfl]; decide, hv⟩
    · exact .inr ⟨by rw [State.opcode_of_fetch hf rfl]; decide, hv⟩
    · exact .inr ⟨by rw [State.opcode_of_fetch hf rfl]; decide, hv⟩
  · exact absurd rfl hne
  · exact absurd rfl hne

end Sys2Proof.Machine
end

section
/-! PROOF. The ALU (43_alu.md): each instruction delivers one result, and a result is a number or a list of
bits of its values.  The rules of the results stand first; the instructions follow from them and from the
shape they share. -/

namespace Sys2Proof.Machine

variable {s : State} {a b c : Operand} (x y : Word)

/-! ### The results as numbers -/

theorem eqResult_eq : eqResult x y = if x = y then 1 else 0 := by
  simp [eqResult, truthWord]

theorem gtResult_eq : gtResult x y = if x.toNat > y.toNat then 1 else 0 := by
  simp [gtResult, truthWord]

/-- A remainder modulo 32768 fits in a word. -/
theorem toNat_ofNat_mod_arithModulus (n : Nat) : (BitVec.ofNat 16 (n % arithModulus)).toNat = n % 32768 := by
  simp only [arithModulus, BitVec.toNat_ofNat]
  omega

theorem toNat_addResult : (addResult x y).toNat = (x.toNat + y.toNat) % 32768 :=
  toNat_ofNat_mod_arithModulus _

theorem toNat_multResult : (multResult x y).toNat = (x.toNat * y.toNat) % 32768 :=
  toNat_ofNat_mod_arithModulus _

/-- The remainder is at most the dividend, so it fits in a word too. -/
theorem toNat_modResult : (modResult x y).toNat = x.toNat % y.toNat := by
  rw [modResult, BitVec.toNat_ofNat, Nat.mod_eq_of_lt ((Nat.mod_le _ _).trans_lt x.isLt)]

/-! ### The bits of `not` -/

theorem notMask_eq : notMask = (BitVec.allOnes 15).setWidth 16 := by
  decide

theorem getLsbD_notResult (n : Nat) : (notResult x).getLsbD n = (decide (n < 15) && !x.getLsbD n) := by
  rw [notResult, notMask_eq, BitVec.getLsbD_and, BitVec.getLsbD_not, BitVec.getLsbD_setWidth,
    BitVec.getLsbD_allOnes]
  by_cases hn : n < 15
  · simp [hn, show n < 16 by omega]
  · simp [hn]

/-! ### The results of values of at most 15 bits -/

theorem eqResult_le : (eqResult x y).toNat ≤ 32767 := by
  rw [eqResult_eq]
  split <;> decide

theorem gtResult_le : (gtResult x y).toNat ≤ 32767 := by
  rw [gtResult_eq]
  split <;> decide

theorem addResult_le : (addResult x y).toNat ≤ 32767 := by
  rw [toNat_addResult]
  omega

theorem multResult_le : (multResult x y).toNat ≤ 32767 := by
  rw [toNat_multResult]
  omega

theorem notResult_le : (notResult x).toNat ≤ 32767 := by
  rw [notResult, BitVec.toNat_and]
  exact Nat.and_le_right

variable {x y}

theorem modResult_le (hx : x.toNat ≤ 32767) : (modResult x y).toNat ≤ 32767 := by
  rw [toNat_modResult]
  exact (Nat.mod_le _ _).trans hx

theorem toNat_and_le (hx : x.toNat ≤ 32767) : (x &&& y).toNat ≤ 32767 := by
  rw [BitVec.toNat_and]
  exact Nat.and_le_left.trans hx

theorem toNat_or_le (hx : x.toNat ≤ 32767) (hy : y.toNat ≤ 32767) : (x ||| y).toNat ≤ 32767 := by
  rw [BitVec.toNat_or]
  exact Nat.le_of_lt_succ (Nat.or_lt_two_pow (n := 15) (Nat.lt_succ_of_le hx) (Nat.lt_succ_of_le hy))

/-! ### What each shape of instruction delivers -/

/-- Whatever holds of the result of the two values holds of the word that is delivered. -/
theorem aluBinary_writes_of {f : Word → Word → Word} {P : Word → Prop}
    (hP : P (f (operandValue s b) (operandValue s c))) :
    ∃ t v, aluBinary f a b c s = .next t ∧ P v ∧
      WritesResult a v 4 (encodingEvent (s.pc + 2) b ++ encodingEvent (s.pc + 3) c) s t := by
  obtain ⟨t, hnext, hwrites⟩ := aluBinary_writes s f a b c
  exact ⟨t, _, hnext, hP, hwrites⟩

theorem execMod_writes (hc : operandValue s c ≠ 0) :
    ∃ t, execMod a b c s = .next t ∧ WritesResult a (modResult (operandValue s b) (operandValue s c)) 4
      (encodingEvent (s.pc + 2) b ++ encodingEvent (s.pc + 3) c) s t :=
  ⟨_, (execMod_eq s a b c).trans (if_neg hc), s.writesResult a _ 4 _⟩

theorem execNot_writes (s : State) (a b : Operand) :
    ∃ t, execNot a b s = .next t ∧
      WritesResult a (notResult (operandValue s b)) 3 (encodingEvent (s.pc + 2) b) s t :=
  ⟨_, execNot_eq s a b, s.writesResult a _ 3 _⟩

/-! ### The instructions -/

/-- Settles O33: the result of `eq` is that comparison. -/
theorem eqComparesItsValues : Obligations.EqComparesItsValues := by
  unfold Obligations.EqComparesItsValues
  intro a b c s
  rw [← eqResult_eq]
  exact aluBinary_writes s eqResult a b c

/-- Settles O34: the result of `gt` is that comparison. -/
theorem gtComparesUnsigned : Obligations.GtComparesUnsigned := by
  unfold Obligations.GtComparesUnsigned
  intro a b c s
  rw [← gtResult_eq]
  exact aluBinary_writes s gtResult a b c

/-- Settles O35: the sum reduced modulo 32768 fits in the word delivered. -/
theorem addReducesTheSum : Obligations.AddReducesTheSum := by
  unfold Obligations.AddReducesTheSum
  exact fun a b c s => aluBinary_writes_of (toNat_addResult _ _)

/-- Settles O36: the product reduced modulo 32768 fits in the word delivered. -/
theorem multReducesTheProduct : Obligations.MultReducesTheProduct := by
  unfold Obligations.MultReducesTheProduct
  exact fun a b c s => aluBinary_writes_of (toNat_multResult _ _)

/-- Settles O37: the divisor decides between the remainder, which fits in the word delivered, and the
fault. -/
theorem modGivesTheRemainder : Obligations.ModGivesTheRemainder := by
  unfold Obligations.ModGivesTheRemainder
  intro a b c s es
  refine ⟨fun hc => ?_, fun hc => (execMod_eq s a b c).trans (if_pos hc)⟩
  obtain ⟨t, hnext, hwrites⟩ := execMod_writes hc
  exact ⟨t, _, hnext, toNat_modResult _ _, hwrites⟩

/-- Settles O38: the result is not masked, so every bit is the AND of two. -/
theorem andIsBitwise : Obligations.AndIsBitwise := by
  unfold Obligations.AndIsBitwise
  exact fun a b c s => aluBinary_writes_of fun _ _ => BitVec.getLsbD_and

/-- Settles O39: the result is not masked, so every bit is the OR of two. -/
theorem orIsBitwise : Obligations.OrIsBitwise := by
  unfold Obligations.OrIsBitwise
  exact fun a b c s => aluBinary_writes_of fun _ _ => BitVec.getLsbD_or

/-- Settles O40: the mask leaves the complemented bits below 15 and clears bit 15. -/
theorem notComplementsFifteenBits : Obligations.NotComplementsFifteenBits := by
  unfold Obligations.NotComplementsFifteenBits
  intro a b s
  obtain ⟨t, hnext, hwrites⟩ := execNot_writes s a b
  exact ⟨t, _, hnext, fun n hn => by simp [getLsbD_notResult, hn],
    getLsbD_notResult _ 15, hwrites⟩

/-! ### Fifteen bits -/

/-- A bound on the result of the two values is a bound on the word delivered. -/
theorem aluBinary_delivers_le {f : Word → Word → Word}
    (hf : (f (operandValue s b) (operandValue s c)).toNat ≤ 32767) :
    ∃ t v, aluBinary f a b c s = .next t ∧ v.toNat ≤ 32767 ∧ Delivered a v s t := by
  obtain ⟨t, v, hnext, hv, hdelivered, -⟩ := aluBinary_writes_of (a := a) (P := (·.toNat ≤ 32767)) hf
  exact ⟨t, v, hnext, hv, hdelivered⟩

/-- Settles O41: `eq`, `gt`, `add`, `mult` and `not` give at most 15 bits whatever their values; `and` and
`mod` give no more than their first value, and `or` sets no bit that both values lack. -/
theorem aluKeepsFifteenBits : Obligations.AluKeepsFifteenBits := by
  unfold Obligations.AluKeepsFifteenBits
  intro a b c s hb hc
  refine ⟨?_, fun hne => ?_, fun hzero => ⟨_, (modGivesTheRemainder a b c s).2 hzero, rfl, rfl, rfl⟩⟩
  · simp only [List.forall_mem_cons]
    refine ⟨?eq, ?gt, ?add, ?mult, ?and, ?or, ?not, by simp⟩
    case eq => exact aluBinary_delivers_le (eqResult_le _ _)
    case gt => exact aluBinary_delivers_le (gtResult_le _ _)
    case add => exact aluBinary_delivers_le (addResult_le _ _)
    case mult => exact aluBinary_delivers_le (multResult_le _ _)
    case and => exact aluBinary_delivers_le (toNat_and_le hb)
    case or => exact aluBinary_delivers_le (toNat_or_le hb hc)
    case not =>
      obtain ⟨t, hnext, hdelivered, -⟩ := execNot_writes s a b
      exact ⟨t, _, hnext, notResult_le _, hdelivered⟩
  · obtain ⟨t, hnext, hdelivered, -⟩ := execMod_writes hne
    exact ⟨t, _, hnext, modResult_le hb, hdelivered⟩

end Sys2Proof.Machine
end

section
/-! PROOF. Control transfer (44_control_transfer.md): each jump is its meaning's one equation, its target is
first looked at by the next fetch, and `ret` undoes `call`. -/

namespace Sys2Proof.Machine

/-! ### `jmp`, `jt` and `jf` -/

/-- Settles O42: `jmp` leaves a running block running with its value in `pc`, and there the next fetch finds
no opcode word if the value is above the top (O9). -/
theorem jmpGoesToItsValue : Obligations.JmpGoesToItsValue := by
  unfold Obligations.JmpGoesToItsValue
  exact fun a s => ⟨_, execJmp_eq s a, rfl, fun hrun habove => opcodeFetchAboveTopFaults _ hrun habove⟩

/-- Settles O43: both operands are resolved before the condition chooses `pc`. -/
theorem jtBranchesOnNonzero : Obligations.JtBranchesOnNonzero := by
  unfold Obligations.JtBranchesOnNonzero
  exact fun a b s => execJt_eq s a b

/-- Settles O44: both operands are resolved before the condition chooses `pc`. -/
theorem jfBranchesOnZero : Obligations.JfBranchesOnZero := by
  unfold Obligations.JfBranchesOnZero
  exact fun a b s => execJf_eq s a b

/-! ### `call` and `ret` -/

/-- Settles O45: the capacity decides between the return address on top and the overflow. -/
theorem callPushesTheReturnAddress : Obligations.CallPushesTheReturnAddress := by
  unfold Obligations.CallPushesTheReturnAddress
  exact fun a s => ⟨fun hroom => (execCall_eq s a).trans (if_neg hroom),
    fun hfull => (execCall_eq s a).trans (if_pos hfull)⟩

/-- Settles O46: the top is taken whatever pushed it. -/
theorem retGoesToTheTop : Obligations.RetGoesToTheTop := by
  unfold Obligations.RetGoesToTheTop
  exact fun s below v hs => execRet_of_concat s below v hs

/-- Settles O48: a call with room leaves its return address on top of the stack of the start (O45), and a
`ret` in any state with that stack goes there (O46). -/
theorem callThenRetResumes : Obligations.CallThenRetResumes := by
  unfold Obligations.CallThenRetResumes
  intro a s hroom
  obtain ⟨t, hcall, htop⟩ : ∃ t, exec (.call a) s = .next t ∧ t.stack = s.stack ++ [s.pc + 2] :=
    ⟨_, (callPushesTheReturnAddress a s).1 hroom, rfl⟩
  exact ⟨t, hcall, fun u hu => retGoesToTheTop u s.stack (s.pc + 2) (hu.trans htop)⟩

end Sys2Proof.Machine
end

section
/-! PROOF. Character I/O (45_io.md): `out` emits one code, `in` is one `ReadChar` and one delivery, and no
other instruction changes what there is to read. -/

namespace Sys2Proof.Machine

variable {s t u : State} {i : Instr} {c : Word}

/-! ### `ReadChar` and the codes to come -/

theorem State.pendingCodes_of_input_eq (hb : t.inbuf = s.inbuf) (hl : t.inLine = s.inLine) :
    t.pendingCodes = s.pendingCodes := by
  rw [State.pendingCodes, State.pendingCodes, hb, hl]

/-- R155: the code `ReadChar` gives is the first of those to come, and the others stay to come in order. -/
theorem State.pendingCodes_of_readChar (h : s.readChar = some (c, u)) :
    s.pendingCodes = c :: u.pendingCodes := by
  obtain ⟨cs, hb, rfl⟩ | ⟨hb, l, ls, hl, rfl, rfl⟩ := (s.readChar_eq_some u c).1 h
  · simp [State.pendingCodes, hb]
  · simp [State.pendingCodes, hb, hl, Line.codes]

/-- R151: `ReadChar` waits only if no code is to come. -/
theorem State.readChar_of_pendingCodes {rest : List Word} (h : s.pendingCodes = c :: rest) :
    ∃ u, s.readChar = some (c, u) ∧ u.pendingCodes = rest := by
  cases hr : s.readChar with
  | none =>
    obtain ⟨hb, hl⟩ := s.readChar_eq_none.1 hr
    simp [State.pendingCodes, hb, hl] at h
  | some p =>
    obtain ⟨hc, hrest⟩ := List.cons.inj ((State.pendingCodes_of_readChar hr).symm.trans h)
    exact ⟨p.2, by rw [← hc], hrest⟩

/-- A `ReadChar` that changes what is on offer finds the buffer empty and takes the first line. -/
theorem State.line_of_readChar (h : s.readChar = some (c, u)) (hne : u.inLine ≠ s.inLine) :
    s.inbuf = [] ∧ ∃ l, s.inLine = l :: u.inLine ∧ u.inbuf = l.rest := by
  obtain ⟨cs, -, rfl⟩ | ⟨hb, l, ls, hl, -, rfl⟩ := (s.readChar_eq_some u c).1 h
  · exact absurd rfl hne
  · exact ⟨hb, l, hl, rfl⟩

/-! ### `in` and `out` -/

theorem execInp_of_readChar (a : Operand) (h : s.readChar = some (c, u)) :
    execInp a s = .next ((u.writeDest 1 a c).advance 2) := by
  rw [execInp, h]

/-- R154: once `ReadChar` has given its code, `in` delivers it and does nothing else. -/
theorem exec_inp_writes (a : Operand) (h : s.readChar = some (c, u)) :
    ∃ t, exec (.inp a) s = .next t ∧ t.inbuf = u.inbuf ∧ t.inLine = u.inLine ∧
      WritesResult a c 2 [] u t := by
  have hwrites := u.writesResult a c 2 []
  rw [State.log_nil] at hwrites
  exact ⟨_, execInp_of_readChar a h, u.writeDest_inbuf 1 a c, u.writeDest_inLine 1 a c, hwrites⟩

/-- Settles O50: `ReadChar` takes the first code of the buffer. -/
theorem inTakesTheFirstBufferedCode : Obligations.InTakesTheFirstBufferedCode := by
  unfold Obligations.InTakesTheFirstBufferedCode
  exact fun a s c cs hb => exec_inp_writes a ((s.readChar_eq_some _ c).2 (.inl ⟨cs, hb, rfl⟩))

/-- Settles O51: `ReadChar` takes the first line and gives its first code. -/
theorem inTakesOneLineWhenEmpty : Obligations.InTakesOneLineWhenEmpty := by
  unfold Obligations.InTakesOneLineWhenEmpty
  exact fun a s l ls hb hl =>
    exec_inp_writes a ((s.readChar_eq_some _ l.first).2 (.inr ⟨hb, l, ls, hl, rfl, rfl⟩))

/-- Settles O49: the value goes out as it is. -/
theorem outEmitsItsValue : Obligations.OutEmitsItsValue := by
  unfold Obligations.OutEmitsItsValue
  exact fun a s => execOut_eq s a

/-- Settles O55: a pending code is one `ReadChar` gives, the `in` leaves it in the register, and the `out`
emits what the register holds (O49). -/
theorem inThenOutEchoes : Obligations.InThenOutEchoes := by
  unfold Obligations.InThenOutEchoes
  intro k s c rest hpending
  obtain ⟨u, hread, hrest⟩ := State.readChar_of_pendingCodes hpending
  obtain ⟨t, hin, hb, hl, ⟨hreg, -, -⟩, -⟩ := exec_inp_writes (.register k) hread
  have hout : t.outChar = s.outChar := execInp_keeps_outChar hin
  have hvalue : operandValue t (.register k) = c := hreg
  refine ⟨t, _, hin, outEmitsItsValue (.register k) t, ?_, ?_⟩
  · rw [hout, hvalue]
  · exact (State.pendingCodes_of_input_eq hb hl).trans hrest

/-! ### What touches the input -/

theorem State.pop_keeps_input (h : s.pop = some (c, u)) : u.inbuf = s.inbuf ∧ u.inLine = s.inLine := by
  obtain ⟨below, -, rfl⟩ := (s.pop_eq_some u c).1 h
  exact ⟨rfl, rfl⟩

theorem aluBinary_keeps_input {f : Word → Word → Word} {a b c : Operand}
    (h : aluBinary f a b c s = .next t) : t.inbuf = s.inbuf ∧ t.inLine = s.inLine := by
  rw [aluBinary_eq] at h
  cases h
  simp

theorem execRmem_keeps_input {a b : Operand} (h : execRmem a b s = .next t) :
    t.inbuf = s.inbuf ∧ t.inLine = s.inLine := by
  unfold execRmem at h
  split at h
  · rw [rmemIndirect_eq] at h
    split at h <;> cases h <;> simp
  · rw [rmemDirect_eq] at h
    cases h
    simp

/-- R157: no instruction but `in` changes the buffer or the lines on offer. -/
theorem exec_keeps_input (hi : ∀ a, i ≠ .inp a) (h : exec i s = .next t) :
    t.inbuf = s.inbuf ∧ t.inLine = s.inLine := by
  cases i with
  | inp a => exact absurd rfl (hi a)
  | eq | gt | add | mult | and | or => exact aluBinary_keeps_input h
  | rmem => exact execRmem_keeps_input h
  | pop | ret =>
    simp only [exec, execPop, execRet] at h
    split at h <;> cases h
    · exact ⟨rfl, rfl⟩
    · next hp => simpa using State.pop_keeps_input hp
  | halt | noop =>
    cases h
    exact ⟨rfl, rfl⟩
  | set | not | out | jmp | jt | jf =>
    simp only [exec, execSet_eq, execNot_eq, execOut_eq, execJmp_eq, execJt_eq, execJf_eq] at h
    cases h
    simp
  | mod | wmem | push | call =>
    simp only [exec, execMod_eq, execWmem_eq, execPush_eq, execCall_eq] at h
    split at h <;> cases h <;> simp

/-- A step leaves the input as it is, or it is an `in` and leaves the input as one `ReadChar` does. -/
theorem step_input_cases (h : step s = .next t) :
    (t.inbuf = s.inbuf ∧ t.inLine = s.inLine) ∨
      (s.opcode = 20 ∧ ∃ c u, s.readChar = some (c, u) ∧ t.inbuf = u.inbuf ∧ t.inLine = u.inLine) := by
  obtain ⟨-, ⟨i, hf, he⟩ | ⟨op, -, rfl⟩ | ⟨a, -, rfl⟩⟩ := step_cases s t h
  · by_cases hi : ∃ a, i = .inp a
    · obtain ⟨a, rfl⟩ := hi
      refine .inr ⟨State.opcode_of_fetch hf rfl, ?_⟩
      simp only [exec, execInp] at he
      split at he <;> cases he
      next hread => exact ⟨_, _, hread, by simp⟩
    · exact .inl (exec_keeps_input (not_exists.1 hi) he)
  · exact .inl ⟨rfl, rfl⟩
  · exact .inl ⟨rfl, rfl⟩

/-- Settles O52: only the `ReadChar` of an `in` changes the codes to come, and it takes the first. -/
theorem codesAreConsumedInTypedOrder : Obligations.CodesAreConsumedInTypedOrder := by
  unfold Obligations.CodesAreConsumedInTypedOrder
  intro s t h
  obtain ⟨hb, hl⟩ | ⟨hop, c, u, hread, hb, hl⟩ := step_input_cases h
  · exact .inl (State.pendingCodes_of_input_eq hb hl)
  · refine .inr ⟨hop, c, ?_⟩
    rw [State.pendingCodes_of_input_eq hb hl]
    exact State.pendingCodes_of_readChar hread

/-- Settles O53: only the `ReadChar` of an `in` changes what is on offer, and it takes a line only if the
buffer is empty. -/
theorem linesAreTakenOnlyByIn : Obligations.LinesAreTakenOnlyByIn := by
  unfold Obligations.LinesAreTakenOnlyByIn
  intro s t h hne
  obtain ⟨-, hl⟩ | ⟨hop, c, u, hread, hb, hl⟩ := step_input_cases h
  · exact absurd hl hne
  · rw [hb, hl]
    exact ⟨hop, State.line_of_readChar hread (hl ▸ hne)⟩

end Sys2Proof.Machine
end

section
/-! PROOF. Stops (60_exceptions.md): the ways a step can end, said once, and from them that a fault or a
halt changes the status, logs what came before it, and does nothing else. -/

namespace Sys2Proof

open Machine in
/-- What resolving an instruction's value operands logs, in operand order: the table of R74 on constructors, for
an instruction at `pc`. -/
def Instr.encodingEvents (pc : Word) : Instr → List DiagEvent
  | .push a | .jmp a | .call a | .out a => encodingEvent (pc + 1) a
  | .set _ b | .not _ b | .rmem _ b => encodingEvent (pc + 2) b
  | .jt a b | .jf a b | .wmem a b => encodingEvent (pc + 1) a ++ encodingEvent (pc + 2) b
  | .eq _ b c | .gt _ b c | .add _ b c | .mult _ b c | .mod _ b c | .and _ b c | .or _ b c =>
    encodingEvent (pc + 2) b ++ encodingEvent (pc + 3) c
  | .halt | .pop _ | .ret | .inp _ | .noop => []

namespace Machine

variable {s t : State} {i : Instr}

/-! ### The instruction a fetch finds -/

/-- R90 to R92: a fetch gives an instruction exactly if all its words are in memory; else the opcode word is
unknown, or an address is out of range. -/
theorem State.fetch_cases (s : State) :
    (s.fetchable ∧ ∃ i, s.fetch = .instr i) ∨
      (¬ s.fetchable ∧ (s.fetch = .unknownOpcode s.opcode ∨ ∃ a, s.fetch = .outOfRange a)) := by
  rcases Nat.lt_or_ge 32767 s.pc.toNat with hpc | hpc
  · exact .inr ⟨fun ⟨n, _, htop⟩ => by omega, .inr ⟨_, State.fetch_of_pc_gt hpc⟩⟩
  rcases Nat.lt_or_ge 21 s.opcode.toNat with hop | hop
  · exact .inr ⟨fun ⟨n, hn, _⟩ => absurd (le_of_operandCount _ n hn) (Nat.not_le_of_lt hop),
      .inl (State.fetch_of_opcode_gt hpc hop)⟩
  obtain ⟨n, hn⟩ := operandCount_of_le hop
  rcases Nat.lt_or_ge 32767 (s.pc.toNat + n) with htop | htop
  · refine .inr ⟨fun ⟨m, hm, hle⟩ => ?_, .inr ⟨_, State.fetch_of_operand_above_top hpc hn htop⟩⟩
    cases hn.symm.trans hm
    omega
  · have hle := le_three_of_operandCount hn
    have hlen := s.length_window 3 (s.pc.toNat + 1)
    rw [memWords] at hlen
    obtain ⟨i, hd, -⟩ := (opcodeAloneChoosesTheFormat _ (s.window 3 (s.pc.toNat + 1)) n hn).1 (by omega)
    exact .inl ⟨⟨n, hn, htop⟩, i, by rw [State.fetch, s.window_at_pc 3 (Nat.lt_succ_of_le hpc), hd]⟩

/-- Operand word `n` at `pc` is word `n` of the instruction fetched there. -/
theorem State.operandAt_of_fetch {n : Nat} {o : Operand} (hf : s.fetch = .instr i)
    (he : (encode i)[n]? = some o.word) (ho : o.wf = true) : s.operandAt n = o := by
  obtain ⟨-, hholds⟩ := State.fetch_eq_instr_iff.1 hf
  obtain ⟨hn, hword⟩ := List.getElem?_eq_some_iff.1 he
  rw [State.operandAt, (hholds n hn).2, hword, classify_word o ho]

/-- The events the table of R74 gives for the words at `pc` are those of the instruction fetched there. -/
theorem State.encodingEvents_of_fetch (hf : s.fetch = .instr i) :
    s.encodingEvents = i.encodingEvents s.pc := by
  have hwf := (State.fetch_eq_instr_iff.1 hf).1
  have hword {n : Nat} {o : Operand} := State.operandAt_of_fetch (n := n) (o := o) hf
  cases i with
  | halt | pop | ret | inp | noop =>
    simp [State.encodingEvents, State.opcode_of_fetch hf rfl, valueOperands, Instr.encodingEvents]
  | push a | jmp a | call a | out a =>
    have ha := hword (n := 1) rfl hwf
    simp [State.encodingEvents, State.opcode_of_fetch hf rfl, valueOperands, Instr.encodingEvents, ha]
  | set a b | not a b | rmem a b =>
    obtain ⟨-, hwb⟩ := Bool.and_eq_true_iff.1 hwf
    have hb := hword (n := 2) rfl hwb
    simp [State.encodingEvents, State.opcode_of_fetch hf rfl, valueOperands, Instr.encodingEvents, hb]
  | jt a b | jf a b | wmem a b =>
    obtain ⟨hwa, hwb⟩ := Bool.and_eq_true_iff.1 hwf
    have ha := hword (n := 1) rfl hwa
    have hb := hword (n := 2) rfl hwb
    simp [State.encodingEvents, State.opcode_of_fetch hf rfl, valueOperands, Instr.encodingEvents, ha, hb]
  | eq a b c | gt a b c | add a b c | mult a b c | mod a b c | and a b c | or a b c =>
    obtain ⟨hwab, hwc⟩ := Bool.and_eq_true_iff.1 hwf
    obtain ⟨-, hwb⟩ := Bool.and_eq_true_iff.1 hwab
    have hb := hword (n := 2) rfl hwb
    have hc := hword (n := 3) rfl hwc
    simp [State.encodingEvents, State.opcode_of_fetch hf rfl, valueOperands, Instr.encodingEvents, hb, hc]

/-! ### How a step ends -/

/-- Every way an instruction that logs `es` while it resolves its values can leave the status: as it was, or
at a stop that does nothing else. -/
inductive Ending (s : State) (es : List DiagEvent) : State → Prop
  | goesOn {t : State} (h : t.status = s.status) : Ending s es t
  | halts (r : HaltReason) : Ending s es (s.halt r)
  | faults (k : FaultKind) : Ending s es ((s.log es).raise k)

theorem execRmem_ending {a b : Operand} (h : execRmem a b s = .next t) :
    Ending s (encodingEvent (s.pc + 2) b) t := by
  unfold execRmem at h
  split at h
  · rw [rmemIndirect_eq] at h
    split at h <;> cases h
    · exact .goesOn (by simp)
    · exact .faults _
  · rw [rmemDirect_eq] at h
    cases h
    exact .goesOn (by simp)

theorem execPop_ending {a : Operand} (h : execPop a s = .next t) : Ending s [] t := by
  rcases List.eq_nil_or_concat' s.stack with hs | ⟨below, v, hs⟩
  · rw [execPop_of_empty s a hs] at h
    cases h
    simpa using Ending.faults (s := s) (es := []) .stackUnderflow
  · rw [execPop_of_concat s a below v hs] at h
    cases h
    exact .goesOn (by simp)

theorem execRet_ending (h : execRet s = .next t) : Ending s [] t := by
  rcases List.eq_nil_or_concat' s.stack with hs | ⟨below, v, hs⟩
  · rw [execRet_of_empty s hs] at h
    cases h
    exact .halts _
  · rw [execRet_of_concat s below v hs] at h
    cases h
    exact .goesOn rfl

theorem State.readChar_keeps_status {c : Word} (h : s.readChar = some (c, t)) : t.status = s.status := by
  obtain ⟨cs, -, rfl⟩ | ⟨-, l, ls, -, -, rfl⟩ := (s.readChar_eq_some t c).1 h <;> rfl

theorem execInp_ending {a : Operand} (h : execInp a s = .next t) : Ending s [] t := by
  unfold execInp at h
  split at h <;> cases h
  next hc => exact .goesOn (by simpa using State.readChar_keeps_status hc)

/-- R175, R176, R179: a stop of an instruction comes after it has resolved its values and before it has done
anything else. -/
theorem exec_ending (h : exec i s = .next t) : Ending s (i.encodingEvents s.pc) t := by
  cases i with
  | rmem => exact execRmem_ending h
  | pop => exact execPop_ending h
  | ret => exact execRet_ending h
  | inp => exact execInp_ending h
  | halt =>
    cases h
    exact .halts _
  | mod =>
    rw [exec, execMod_eq] at h
    split at h <;> cases h
    · exact .faults _
    · exact .goesOn (by simp)
  | wmem =>
    rw [exec, execWmem_eq] at h
    split at h <;> cases h
    · exact .goesOn (by simp)
    · exact .faults _
  | push | call =>
    simp only [exec, execPush_eq, execCall_eq] at h
    split at h <;> cases h
    · exact .faults _
    · exact .goesOn rfl
  | eq | gt | add | mult | and | or =>
    cases (aluBinary_eq ..).symm.trans h
    exact .goesOn (by simp)
  | noop =>
    cases h
    exact .goesOn rfl
  | set | not | out | jmp | jt | jf =>
    simp only [exec, execSet_eq, execNot_eq, execOut_eq, execJmp_eq, execJt_eq, execJf_eq] at h
    cases h
    exact .goesOn (by simp)

/-- Every way a step can end: as the instruction it fetched does, at an unknown opcode, or at a fetch
fault. -/
theorem step_ending (h : step s = .next t) :
    s.status = .running ∧
      ((s.fetchable ∧ Ending s s.encodingEvents t) ∨
        (¬ s.fetchable ∧
          (t = (s.log [.unknownOpcode s.pc s.opcode]).halt (.unknownOpcode s.opcode) ∨
            ∃ k, t = s.raise k))) := by
  obtain ⟨hrun, -⟩ := step_cases s t h
  refine ⟨hrun, ?_⟩
  obtain ⟨hfetch, i, hf⟩ | ⟨hfetch, hf | ⟨a, hf⟩⟩ := s.fetch_cases
  · rw [step_of_instr s hrun i hf] at h
    exact .inl ⟨hfetch, State.encodingEvents_of_fetch hf ▸ exec_ending h⟩
  · cases (step_of_unknownOpcode s hrun _ hf).symm.trans h
    exact .inr ⟨hfetch, .inl rfl⟩
  · cases (step_of_outOfRange s hrun a hf).symm.trans h
    exact .inr ⟨hfetch, .inr ⟨_, rfl⟩⟩

/-! ### Faults and halts -/

/-- Settles O14: of the ways a step can end, one is a fault with the instruction fetched and one is a fault of
the fetch. -/
theorem faultsArePrecise : Obligations.FaultsArePrecise := by
  unfold Obligations.FaultsArePrecise
  intro s t k h hfaulted
  obtain ⟨hrun, ⟨hfetch, hend⟩ | ⟨hfetch, rfl | ⟨j, rfl⟩⟩⟩ := step_ending h
  · refine ⟨fun _ => ?_, fun hnot => absurd hfetch hnot⟩
    cases hend with
    | goesOn hst => cases hfaulted.symm.trans (hst.trans hrun)
    | halts r => cases hfaulted
    | faults j =>
      cases hfaulted
      rfl
  · cases hfaulted
  · cases hfaulted
    exact ⟨fun hyes => absurd hyes hfetch, fun _ => rfl⟩

/-- Settles O15: of the ways a step can end, one is the halt of an instruction, which logs nothing, and one is
an unknown opcode. -/
theorem haltsChangeOnlyTheStatus : Obligations.HaltsChangeOnlyTheStatus := by
  unfold Obligations.HaltsChangeOnlyTheStatus
  intro s t r h hhalted
  obtain ⟨hrun, ⟨-, hend⟩ | ⟨-, rfl | ⟨k, rfl⟩⟩⟩ := step_ending h
  · cases hend with
    | goesOn hst => cases hhalted.symm.trans (hst.trans hrun)
    | halts q =>
      cases hhalted
      exact ⟨rfl, .inl rfl⟩
    | faults k => cases hhalted
  · cases hhalted
    exact ⟨rfl, .inr ⟨rfl, rfl⟩⟩
  · cases hhalted

/-- Settles O12: a stopped block is told by its status, a waiting one by the `in` it has fetched. -/
theorem disabledStepsSayWhy : Obligations.DisabledStepsSayWhy := by
  unfold Obligations.DisabledStepsSayWhy
  exact fun s => ⟨step_of_stopped s, step_of_waits⟩

/-- Settles O31: `Pop` raises before the destination is looked at. -/
theorem popOfEmptyStackIsFatal : Obligations.PopOfEmptyStackIsFatal := by
  unfold Obligations.PopOfEmptyStackIsFatal
  exact fun a s hs => execPop_of_empty s a hs

/-- Settles O47: `ret` has no entry to go to. -/
theorem retOnEmptyStackHalts : Obligations.RetOnEmptyStackHalts := by
  unfold Obligations.RetOnEmptyStackHalts
  exact fun s hs => execRet_of_empty s hs

end Machine

end Sys2Proof
end

section
/-! PROOF. Reset and the image load (70_reset_and_hazards.md): every boot meets the invariant, and the empty
image runs into the zero memory at once. -/

namespace Sys2Proof.Machine

/-- Both cases of the load leave memory in canonical form: the words of an image that fits (R202), and the
free words after one too large (log entry 9). -/
theorem boot_mem_wf (cfg : Config) (image : List Byte) : (State.boot cfg image).mem.wf = true := by
  obtain hfits | hlarge := le_or_gt (image.length / 2) 32768
  · rw [boot_of_fits cfg image hfits]
    exact Memory.wf_ofWords _ 0 (by rwa [length_wordsOfBytes, Nat.zero_add])
  · rw [boot_of_tooLarge cfg image hlarge]
    exact wf_memoryAfterImageTooLarge image

/-- Settles O22: memory is canonical in both cases of the load, and no boot leaves anything on the stack, on
offer or in the buffer. -/
theorem everyBootMeetsTheInvariant : Obligations.EveryBootMeetsTheInvariant := by
  unfold Obligations.EveryBootMeetsTheInvariant
  exact fun cfg image =>
    { memory := boot_mem_wf cfg image
      stack := by simp
      lines := by simp
      buffer := .inl (boot_inbuf cfg image) }

/-- Settles O20: the empty image fits and has no words, and the word at `pc` of the reset state is 0, the
opcode word of `halt`. -/
theorem emptyImageHaltsAtOnce : Obligations.EmptyImageHaltsAtOnce := by
  unfold Obligations.EmptyImageHaltsAtOnce
  have hpc : State.reset.pc.toNat ≤ 32767 := Nat.zero_le _
  have hop : State.reset.opcode = 0 := rfl
  exact ⟨boot_of_fits defaultConfig [] (Nat.zero_le _), step_of_opcode_zero rfl hpc hop⟩

end Sys2Proof.Machine
end
